-- ==== Sys2Proof/Word.lean ====
section
/-! DEFINITION. The two word types of CORE: the 32-bit word (a control header, a register payload word) and the byte
(an element of the transaction buffer), with the widths of 00_scope.md rule R10. -/

namespace Sys2Proof

/-- A 32-bit word: a control header (HDR_W) or a register payload word (WORD_W), rule R10. -/
abbrev Word := BitVec 32

/-- An element of the transaction buffer and the unit of the transport port (BYTE_W), rules R10 and R82. -/
abbrev Byte := BitVec 8

end Sys2Proof
end

