-- ==== Sys2Proof/Config.lean ====
section
/-! DEFINITION. What is fixed for the machine: the parameters of 00_scope.md rule R10, and the one open value of the
environment (rules R9, R11 and R36): what the transport and the device behind it answer. -/

namespace Sys2Proof.Config

/-- NMIN: the least register count of a transaction (rule R10). -/
def nMin : Nat := 1

/-- NMAX: the greatest register count of a transaction, 2 to the power of the width of `length` (rule R10). -/
def nMax : Nat := 128

/-- HDR_BYTES: the bytes of a serialised header (rule R10). -/
def hdrBytes : Nat := 4

/-- ECHO_OFF: the buffer offset of the echoed header (rule R10). -/
def echoOff : Nat := 4

/-- PAY_OFF: the buffer offset of the payload (rule R10). -/
def payOff : Nat := 8

/-- ENGINE_AID: the value of `aid` in every header the engine builds (rules R10 and R142). -/
def engineAid : BitVec 1 := 1

end Sys2Proof.Config

namespace Sys2Proof

/-- What the transport agent does at one opportunity of the byte-level exchange (41_engine.md rules R132 and R134).
The three answers are all the environment can give; which one it gives is unconstrained (rule R9). -/
inductive LineEvent where
  /-- Nothing yet: the exchange is still blocked on the transport (rule R148). -/
  | wait
  /-- The transport declares failure (rule R134). -/
  | fail
  /-- The exchange goes on: in a byte time `r` is the byte received, and after the last byte it is the transport's
  answer `Ok`, where `r` is no byte of the frame. -/
  | go (r : Byte)
  deriving DecidableEq, Repr, Inhabited

/-- DEVICE, the open parameter of rule R11, as a free value: the `n`-th draw of the transport and the device, which
may depend on every byte put on the line up to and including the one being exchanged (rule R58: a received byte
cannot depend on later ones). It has no body: no statement can rest on what it is (DESIGN CHOICE, safe: log entries 3 and 4). -/
opaque Config.lineDraw (n : Nat) (sent : List Byte) : LineEvent

end Sys2Proof
end

