-- ==== Sys2Proof/Syntax.lean ====
section
/-! DEFINITION. The operations of CORE (30_encoding.md rules R79, R87 and R88) and the wire words of the opcode table
(rules R77 and R78), one constructor per row of spec/opcode_table.json, and the forms in which each one reaches the
machine (`Image`). -/

namespace Sys2Proof

/-- The eight fields of the control header, in the row order of 30_encoding.md rule R63 (the field index f of rule
R79 is the position in this list). -/
inductive Field where
  | parity | length | address | memmap | aid | wnr | hdrb | reserved
  deriving DecidableEq, Repr

/-- One constructor per row of spec/opcode_table.json. Codec operands that the spec calls natural numbers are `Nat`
(rule R97: they are truncated, not refused); port fields have the widths of rule R80. -/
inductive Instr where
  -- the five named codec operations (40_codec.md rules R97 to R101)
  | encode (length address memmap : Nat) (aid wnr : BitVec 1)
  | calcParity (h : Word)
  | toBytes (h : Word)
  | fromBytes (b0 b1 b2 b3 : Byte)
  | hdrOk (h : Word)
  -- getters (rules R104 to R111)
  | getParity (h : Word)
  | getLength (h : Word)
  | getAddress (h : Word)
  | getMemmap (h : Word)
  | getAid (h : Word)
  | getWnr (h : Word)
  | getHdrb (h : Word)
  | getReserved (h : Word)
  -- setters (rules R112 to R119)
  | setParity (h : Word) (v : Nat)
  | setLength (h : Word) (v : Nat)
  | setAddress (h : Word) (v : Nat)
  | setMemmap (h : Word) (v : Nat)
  | setAid (h : Word) (v : Nat)
  | setWnr (h : Word) (v : Nat)
  | setHdrb (h : Word) (v : Nat)
  | setReserved (h : Word) (v : Nat)
  -- engine operations (41_engine.md rules R124, R126 and R127)
  | construct
  | execRead (address : BitVec 16) (memmap : BitVec 4) (registers : Nat)
  | execWrite (address : BitVec 16) (memmap : BitVec 4) (registers : Nat) (payload : List Word)
  -- outbound wire words (30_encoding.md rules R77 and R78): the header a frame starts with
  | hdrCtrlRead (parity : BitVec 1) (length : BitVec 7) (address : BitVec 16) (memmap : BitVec 4) (aid : BitVec 1)
  | hdrCtrlWrite (parity : BitVec 1) (length : BitVec 7) (address : BitVec 16) (memmap : BitVec 4) (aid : BitVec 1)
  | hdrEngineRead (parity : BitVec 1) (length : BitVec 7) (address : BitVec 16) (memmap : BitVec 4)
  | hdrEngineWrite (parity : BitVec 1) (length : BitVec 7) (address : BitVec 16) (memmap : BitVec 4)
  -- received wire words (rules R77 and R136): the echoed header
  | echoAccept (parity : BitVec 1) (length : BitVec 7) (address : BitVec 16) (memmap : BitVec 4)
      (aid wnr reserved : BitVec 1)
  | echoReject (parity : BitVec 1) (length : BitVec 7) (address : BitVec 16) (memmap : BitVec 4)
      (aid wnr reserved : BitVec 1)
  -- convenience reads (rules R88 and R139 to R141)
  | getIdver
  | getPhyid
  | getCapability
  deriving DecidableEq, Repr

/-- A call the caller offers, in bits: an operation of rule R79 (its selector byte, then its operands), or a
convenience read, which has no selector and stands in the table as the exact header it sends (rules R88 and R92). -/
inductive Call where
  | op (bytes : List Byte)
  | convenience (h : Word)
  deriving DecidableEq, Repr

/-- Where a row of the opcode table reaches the machine: as a call of the caller, as the header at the front of the
frame being built (`sent`), or as the echo found in the received frame (`received`). The three never meet: the
direction of a wire word is part of its meaning (rule R77, column "who produces it"). -/
inductive Image where
  | call (c : Call)
  | sent (h : Word)
  | received (h : Word)
  deriving DecidableEq, Repr

end Sys2Proof
end

