-- ==== Sys2Proof/Machine/Operands.lean ====
section
/-! DEFINITION. How operands become bits and bits become operands: the header's field layout in ONE table
(30_encoding.md rule R64, parameter FIELD_LAYOUT: every definition that reads or writes a header bit goes through
`fieldShift`), field access (40_codec.md rule R96), the parity law's bit count
(rule R98), and the big-endian byte order of headers and payload words (20_memory.md rules R43 and R44). -/

namespace Sys2Proof.Machine

/-- FIELD_LAYOUT of 00_scope.md rule R11: the shift column of the table of 30_encoding.md rule R64 (decision D1; DESIGN
CHOICE, log entry 1). It is the one place where a field's position stands: another layout is another table here. -/
def fieldShift : Field → Nat
  | .parity => 0
  | .length => 1
  | .address => 8
  | .memmap => 24
  | .aid => 28
  | .wnr => 29
  | .hdrb => 30
  | .reserved => 31

/-- The width column of 30_encoding.md rule R63. -/
@[reducible] def fieldWidth : Field → Nat
  | .parity => 1
  | .length => 7
  | .address => 16
  | .memmap => 4
  | .aid => 1
  | .wnr => 1
  | .hdrb => 1
  | .reserved => 1

/-- The mask-in-place column of rule R64. -/
def fieldMask (f : Field) : Word := BitVec.ofNat 32 (2 ^ fieldWidth f - 1) <<< fieldShift f

/-- `get_F` of 40_codec.md rule R96. -/
def getField (f : Field) (h : Word) : BitVec (fieldWidth f) := h.extractLsb' (fieldShift f) (fieldWidth f)

/-- `trunc_w(v)` placed at the field: the second operand of the OR in rule R96. -/
def placeField (f : Field) (v : Nat) : Word := BitVec.ofNat 32 (v % 2 ^ fieldWidth f) <<< fieldShift f

/-- `ins_F` of 40_codec.md rule R96: the field replaced by `v` reduced to its width, the other bits kept. -/
def insField (f : Field) (h : Word) (v : Nat) : Word := (h &&& ~~~(fieldMask f)) ||| placeField f v

/-- The number of 1 bits among bits `n-1` to 0. -/
def popcountBelow : Nat → Word → Nat
  | 0, _ => 0
  | n + 1, h => popcountBelow n h + (h.getLsbD n).toNat

/-- `popcount` of 00_scope.md rule R13. -/
def popcount (h : Word) : Nat := popcountBelow 32 h

/-- `odd_parity` of 40_codec.md rule R95: a notation of the laws, not an operation of the hardware. -/
def oddParity (h : Word) : Bool := popcount h % 2 == 1

/-- The word with its `parity` bit cleared: the other 31 bits (rule R98). -/
def clearParity (h : Word) : Word := h &&& ~~~(fieldMask .parity)

/-- CALC_PARITY, 40_codec.md rule R98. -/
def calcParity (h : Word) : Word :=
  clearParity h ||| placeField .parity (if popcount (clearParity h) % 2 = 0 then 1 else 0)

/-- ENCODE, 40_codec.md rule R97: `hdrb = 0`, `reserved = 0`, parity computed last. -/
def encodeHeader (length address memmap : Nat) (aid wnr : BitVec 1) : Word :=
  calcParity (placeField .length length ||| placeField .address address ||| placeField .memmap memmap
    ||| placeField .aid aid.toNat ||| placeField .wnr wnr.toNat)

/-- A header from the values of its eight fields: the OR of rule R122, last law. -/
def packHeader (parity : BitVec 1) (length : BitVec 7) (address : BitVec 16) (memmap : BitVec 4)
    (aid wnr hdrb reserved : BitVec 1) : Word :=
  placeField .parity parity.toNat ||| placeField .length length.toNat ||| placeField .address address.toNat
    ||| placeField .memmap memmap.toNat ||| placeField .aid aid.toNat ||| placeField .wnr wnr.toNat
    ||| placeField .hdrb hdrb.toNat ||| placeField .reserved reserved.toNat

/-- `be32` of 00_scope.md rule R13: the four bytes of a word, most significant first. -/
def be32 (w : Word) : List Byte :=
  [w.extractLsb' 24 8, w.extractLsb' 16 8, w.extractLsb' 8 8, w.extractLsb' 0 8]

/-- `unbe32` of 00_scope.md rule R13. -/
def unbe32 (b0 b1 b2 b3 : Byte) : Word := b0 ++ b1 ++ b2 ++ b3

/-- The words of a byte sequence, four bytes each, most significant first (20_memory.md rule R44). A tail of fewer
than four bytes is no word. -/
def wordsOf : List Byte → List Word
  | b0 :: b1 :: b2 :: b3 :: rest => unbe32 b0 b1 b2 b3 :: wordsOf rest
  | _ => []

/-- The register name constants, 30_encoding.md rule R89 (UNVERIFIED literals, log entry 21). -/
def idVerAddress : BitVec 16 := 0x0000
def phyIdAddress : BitVec 16 := 0x0001
def capabilityAddress : BitVec 16 := 0x0002

/-- The memory-map selector of the standard control/status space (30_encoding.md rule R66). -/
def standardMap : BitVec 4 := 0

/-- The exact header a convenience read sends (30_encoding.md rule R78): one register, read, memory map 0. -/
def convenienceHeader (address : BitVec 16) : Word :=
  encodeHeader 0 address.toNat standardMap.toNat Config.engineAid 0

/-- `length = N - 1` in 7 bits (30_encoding.md rules R65 and R76). -/
def lenOfCount (registers : Nat) : BitVec 7 := BitVec.ofNat 7 (registers - 1)

/-- N, the register count a `length` stands for (rule R65). -/
def countOfLen (len : BitVec 7) : Nat := len.toNat + 1

/-- `L = 8 + 4 * (LEN + 1)`, the one source of the frame's length (20_memory.md rule R42, 30_encoding.md rule R75). -/
def frameLength (len : BitVec 7) : Nat := Config.payOff + 4 * countOfLen len

/-- The admission conditions of a read, 41_engine.md rule R125. -/
def admitsRead (registers : Nat) : Bool := decide (Config.nMin ≤ registers ∧ registers ≤ Config.nMax)

/-- The admission conditions of a write: the count in range and a payload of exactly that many words (rule R125). -/
def admitsWrite (registers : Nat) (payload : List Word) : Bool :=
  admitsRead registers && decide (payload.length = registers)

end Sys2Proof.Machine
end

