-- ==== Sys2Proof/Machine/State.lean ====
section
/-! DEFINITION. The state of the machine: the elements of one engine instance (10_state.md rule R17), one condition
rule R131 implies, and the two agents around it, the caller and the transport with its device (00_scope.md rule R7),
whose inputs and outputs stand here as plain data. -/

namespace Sys2Proof.Machine

/-- PHASE, the sequencer's position (10_state.md rule R22). -/
inductive Phase where
  | idle | encode | exchange | validate
  deriving DecidableEq, Repr, Inhabited

/-- The two error kinds that occur (60_exceptions.md rules R153 to R155). The third, placeholder kind is never
produced (rule R156) and has no member here (DESIGN CHOICE, log entry 12). -/
inductive ErrorKind where
  | ioError | headerBadError
  deriving DecidableEq, Repr, Inhabited

/-- STATUS (10_state.md rule R26). -/
inductive Status where
  | ok | ioError | headerBadError
  deriving DecidableEq, Repr, Inhabited

/-- TB, the transaction buffer (20_memory.md rule R37), as a list of address and byte pairs. A byte that is not listed
holds no value (10_state.md rules R33 and R35): reading it is a fault (safe, log entry 16), so no listed byte ever equals an unlisted one. -/
abbrev Memory := List Host.Cell

/-- The canonical form: addresses strictly rise. -/
abbrev Memory.wf (m : Memory) : Prop := m.Pairwise (fun x y => x.1 < y.1)

/-- What a codec call returns to the caller (30_encoding.md rule R87). `none`: no codec call has returned yet. -/
inductive CodecOut where
  | none
  | header (h : Word)
  | bytes (bs : List Byte)
  | bool (b : Bool)
  | bit (v : BitVec 1)
  | length (v : BitVec 7)
  | address (v : BitVec 16)
  | memmap (v : BitVec 4)
  deriving DecidableEq, Repr, Inhabited

/-- The machine's state. -/
structure State where
  /-- OWNED: the engine instance holds the transport (rule R18). -/
  owned : Bool
  /-- PHASE: the sequencer's position (rule R22). -/
  phase : Phase
  /-- OP: 0 is Read, 1 is Write (rule R19). -/
  op : BitVec 1
  /-- ADDR: the latched `address` (rule R19). -/
  addr : BitVec 16
  /-- MM: the latched `memmap` (rule R19). -/
  mm : BitVec 4
  /-- LEN: the latched `registers - 1` (rule R19). -/
  len : BitVec 7
  /-- WDATA: the elements that exist, 0 to N-1 in a write (rule R20; DEDUCED, log entry 10). -/
  wdata : List Word
  /-- HDR: the outbound header (rule R24). -/
  hdr : Word
  /-- `HDR` is built: the second half of FRAME's enabling condition (rule R131), which no other element tells (DEDUCED,
  log entry 15). -/
  hdrBuilt : Bool
  /-- TB: the transaction buffer, the bytes that hold a value (rule R35). -/
  tb : Memory
  /-- BIDX: how many bytes of the exchange are done (rule R23). -/
  bidx : BitVec 10
  /-- ECHO: the received header (rule R25). -/
  echo : Word
  /-- DONE: a result is present (rule R27). -/
  done : Bool
  /-- STATUS: how the last transaction ended (rule R26). -/
  status : Status
  /-- RDATA: the elements that exist, 0 to N-1 after a completed read (rule R20; DEDUCED, log entry 10). -/
  rdata : List Word
  /-- The reset input: a reset is requested (rules R177 and R179; DESIGN CHOICE, log entry 14). -/
  resetReq : Bool
  /-- The caller: the calls it offers, the oldest first (rule R80; DESIGN CHOICE, log entry 2). -/
  calls : List Call
  /-- The caller: the command in flight came from a convenience read, whose result is unwrapped (rule R88;
  DESIGN CHOICE, log entry 5). -/
  unwrap : Bool
  /-- The caller: what its last codec call returned (rules R15 and R87; DESIGN CHOICE, log entry 5). -/
  codecOut : CodecOut
  /-- The transport agent: its answers placed from outside, the next first (rule R9; DESIGN CHOICE,
  log entry 3). -/
  line : List LineEvent
  /-- The transport agent: how many answers have been drawn from `Config.lineDraw` (DESIGN CHOICE, log entry 3). -/
  draws : Nat
  /-- The transport port: every byte put on the line, the oldest first (rule R82; DESIGN CHOICE, log entry 4). -/
  sent : List Byte
  deriving DecidableEq, Repr

/-- Why the machine stops with a fault. No run from reset reaches one of them: nothing the caller offers and nothing the
device sends causes a fault (60_exceptions.md rule R173). -/
inductive Fault where
  /-- A read of an element outside its lifetime (10_state.md rule R33, decision D11): raised by the buffer reads, the
  frame of a write without its payload, and the result port. Safe: the model stops. -/
  | noValue
  /-- An access to `TB` that is not inside `[0, L)` (20_memory.md rule R42): raised by the buffer accesses. Safe. -/
  | outsideBuffer
  /-- A sequencer step that no rule enables in this position (10_state.md rule R22, 41_engine.md rule R134): raised by
  the wire words outside their phase and by an exchange with `BIDX > L`. Safe (log entries 7 and 24). -/
  | offSequence
  deriving DecidableEq, Repr

/-- Why the machine gives no meaning to what it is offered. -/
inductive Refusal where
  /-- An instruction not modelled yet: raised by exec's arms only. Safe. -/
  | notModelled (mnemonic : String)
  /-- A selector that names no operation (30_encoding.md rule R84, 93_implementation_defined.md U22): raised by the
  fetch of a call. Safe. -/
  | noSuchOperation (opsel : BitVec 5)
  /-- A call shorter than its operands (60_exceptions.md rule R160; log entry 9): raised by the fetch of a call. Safe. -/
  | truncatedCall
  /-- A word that is no convenience read's header, offered as one (30_encoding.md rule R88): raised by the fetch of a
  call. Safe. -/
  | noSuchConvenience (h : Word)
  /-- A header of neither command class at the front of a frame (30_encoding.md rule R77): raised by the fetch of the
  header; ENCODE cannot produce one. Safe. -/
  | notACommandHeader (h : Word)
  /-- A command outside the admission conditions (41_engine.md rule R125, 60_exceptions.md rule R160): raised by
  EXEC_READ and EXEC_WRITE. Safe (log entry 25). -/
  | notAdmitted
  /-- A second CONSTRUCT on one instance (41_engine.md rule R124, 93_implementation_defined.md U21): raised by
  CONSTRUCT. Safe (log entry 11). -/
  | alreadyConstructed
  deriving DecidableEq, Repr

/-- The state after reset: the column "value after reset" of 10_state.md rule R34. Elements the rule leaves unspecified
hold the values of log entry 6 (DESIGN CHOICE, unsafe); no call is offered and no answer is placed. -/
def State.reset : State where
  owned := false
  phase := .idle
  op := 0
  addr := 0
  mm := 0
  len := 0
  wdata := []
  hdr := 0
  hdrBuilt := false
  tb := []
  bidx := 0
  echo := 0
  done := false
  status := .ok
  rdata := []
  resetReq := false
  calls := []
  unwrap := false
  codecOut := .none
  line := []
  draws := 0
  sent := []

end Sys2Proof.Machine
end

