-- ==== Sys2Proof/Machine/Ops.lean ====
section
/-! DEFINITION. The named operations over the buffer and the state elements: reading and writing TB (00_scope.md rule
R13), answering a codec call, latching a command (41_engine.md rule R129), ending a transaction with an error
(60_exceptions.md rule R158, the block's one exception entry; it has no return, rule R163) or with success (41_engine.md
rule R137), the hardware reset (70_reset_and_hazards.md rule R178), and the transport agent's next answer. -/

namespace Sys2Proof.Machine

/-- The byte at an address, if it holds a value. -/
def Memory.read : Memory → Nat → Option Byte
  | [], _ => none
  | c :: m, a => if c.1 = a then some c.2 else Memory.read m a

/-- The memory with one byte written, in canonical form. -/
def Memory.write : Memory → Nat → Byte → Memory
  | [], a, b => [(a, b)]
  | c :: m, a, b =>
    if a < c.1 then (a, b) :: c :: m
    else if a = c.1 then (a, b) :: m
    else c :: Memory.write m a b

/-- The memory with consecutive bytes written from an address on. -/
def Memory.writeList : Memory → Nat → List Byte → Memory
  | m, _, [] => m
  | m, a, b :: bs => Memory.writeList (Memory.write m a b) (a + 1) bs

/-- `n` consecutive bytes from an address on, if all hold a value. -/
def Memory.readList (m : Memory) : Nat → Nat → Option (List Byte)
  | _, 0 => some []
  | a, n + 1 =>
    match Memory.read m a, Memory.readList m (a + 1) n with
    | some b, some bs => some (b :: bs)
    | _, _ => none

/-- A step's outcome from a computation that may fault. -/
def outcomeOf {ρ : Type} : Except Fault State → Host.Outcome State Fault ρ
  | .ok s => .next s
  | .error f => .fault f

/-- N of the transaction in flight (10_state.md rule R19). -/
def State.count (s : State) : Nat := countOfLen s.len

/-- L of the transaction in flight (20_memory.md rule R42). -/
def State.frameLen (s : State) : Nat := frameLength s.len

/-- `MemRead(a, n)` of 00_scope.md rule R13, defined only inside `[0, L)` (20_memory.md rule R42). -/
def State.memRead (s : State) (a n : Nat) : Except Fault (List Byte) :=
  if a + n ≤ s.frameLen then
    match Memory.readList s.tb a n with
    | some bs => .ok bs
    | none => .error .noValue
  else .error .outsideBuffer

/-- The state with another buffer content; with `[]` it is the buffer allocated fresh, where no byte holds a value
(10_state.md rule R35). -/
def State.withBuffer (s : State) (m : Memory) : State := { s with tb := m }

/-- `MemWrite(a, n, v)` of 00_scope.md rule R13, `n` being the length of `v`. -/
def State.memWrite (s : State) (a : Nat) (v : List Byte) : Except Fault State :=
  if a + v.length ≤ s.frameLen then .ok (s.withBuffer (Memory.writeList s.tb a v)) else .error .outsideBuffer

/-- The payload slot written word by word: `MemWrite(8+4k, 4, be32(w))` for each word in turn (41_engine.md rule
R131), from word `k` on. -/
def State.memWriteWords (s : State) (k : Nat) : List Word → Except Fault State
  | [] => .ok s
  | w :: ws =>
    match s.memWrite (Config.payOff + 4 * k) (be32 w) with
    | .ok t => t.memWriteWords (k + 1) ws
    | .error f => .error f

/-- The payload slot read word by word: `unbe32(MemRead(8+4k, 4))` for `n` words from word `k` on (41_engine.md rule
R137). -/
def State.memReadWords (s : State) : Nat → Nat → Except Fault (List Word)
  | _, 0 => .ok []
  | k, n + 1 =>
    match s.memRead (Config.payOff + 4 * k) 4, s.memReadWords (k + 1) n with
    | .ok bs, .ok ws => .ok (wordsOf bs ++ ws)
    | .error f, _ => .error f
    | _, .error f => .error f

/-- `cmd_ready` of the command port (30_encoding.md rule R80). -/
def State.cmdReady (s : State) : Bool := s.owned && s.phase == .idle

/-- A codec call returns: its value goes to the caller and the call is over. No element of rule R17 is touched
(40_codec.md rule R93). -/
def State.answer (s : State) (out : CodecOut) : State := { s with calls := s.calls.tail, codecOut := out }

/-- CONSTRUCT's effect, 41_engine.md rule R124; the call is over. -/
def State.takeTransport (s : State) : State :=
  { s with owned := true, phase := .idle, done := false, calls := s.calls.tail }

/-- Step ACCEPT, 41_engine.md rule R129: the command is latched and leaves the port; the previous result is gone
(10_state.md rule R27), and of WDATA only the elements of this command exist (rule R20; DEDUCED, log entry 10).
`unwrap` is the caller's. -/
def State.accept (s : State) (op : BitVec 1) (addr : BitVec 16) (mm : BitVec 4) (len : BitVec 7)
    (wdata : List Word) (unwrap : Bool) : State :=
  { s with
    op := op, addr := addr, mm := mm, len := len, wdata := wdata, hdrBuilt := false, rdata := [],
    done := false, phase := .encode, calls := s.calls.tail, unwrap := unwrap }

/-- Step ENCODE, 41_engine.md rule R130: the header is built by the codec from the latches. -/
def State.buildHeader (s : State) : State :=
  { s with hdr := encodeHeader s.len.toNat s.addr.toNat s.mm.toNat Config.engineAid s.op, hdrBuilt := true }

/-- The exchange is entered: `PHASE <- EXCHANGE` and `BIDX` is 0 (10_state.md rule R23). -/
def State.enterExchange (s : State) : State := { s with phase := .exchange, bidx := 0 }

/-- The engine puts a byte on the line, 41_engine.md rule R134: the record of what was sent grows by it. -/
def State.putOnLine (s : State) (t : Byte) : State := { s with sent := s.sent ++ [t] }

/-- The received byte taken, 41_engine.md rule R134: `r` overwrites the byte sent, `BIDX` advances. -/
def State.exchangeByte (s : State) (r : Byte) : State :=
  { s with tb := Memory.write s.tb s.bidx.toNat r, bidx := s.bidx + 1 }

/-- The exchange ended with success: `PHASE <- VALIDATE` (41_engine.md rule R133). -/
def State.enterValidate (s : State) : State := { s with phase := .validate }

/-- `ECHO` takes the received header (41_engine.md rule R136). -/
def State.latchEcho (s : State) (h : Word) : State := { s with echo := h }

/-- The status value of an error kind (10_state.md rule R26). -/
def ErrorKind.status : ErrorKind → Status
  | .ioError => .ioError
  | .headerBadError => .headerBadError

/-- TAKING AN EXCEPTION: `raise <Kind>`, 60_exceptions.md rule R158. STATUS, DONE and PHASE are written and the buffer
is dropped; nothing is saved, and the caller goes on (rule R163). -/
def State.raise (s : State) (kind : ErrorKind) : State :=
  { s with status := kind.status, done := true, phase := .idle, tb := [] }

/-- Completion, the end of step EXTRACT (41_engine.md rule R137): the words read, with STATUS, DONE and PHASE in the
same step; the buffer is discarded (20_memory.md rule R39). -/
def State.complete (s : State) (words : List Word) : State :=
  { s with rdata := words, status := .ok, done := true, phase := .idle, tb := [] }

/-- The hardware reset, 70_reset_and_hazards.md rule R178: every element of rule R17 as after reset; the caller and the
transport are outside and keep what they hold (DESIGN CHOICE, log entry 14). The request is served. -/
def State.hwReset (s : State) : State :=
  { State.reset with
    calls := s.calls, unwrap := s.unwrap, codecOut := s.codecOut, line := s.line, draws := s.draws, sent := s.sent }

/-- The transport agent's next answer: the first one placed from outside, or else a free draw, which may depend on the
bytes `out` put on the line so far (00_scope.md rule R9; DESIGN CHOICE, log entry 3). -/
def State.nextAnswer (s : State) (out : List Byte) : LineEvent :=
  match s.line with
  | e :: _ => e
  | [] => Config.lineDraw s.draws out

/-- The transport agent's answer is used up. -/
def State.useAnswer (s : State) : State :=
  match s.line with
  | _ :: rest => { s with line := rest }
  | [] => { s with draws := s.draws + 1 }

end Sys2Proof.Machine
end

