-- ==== Sys2Proof/Machine/Flags.lean ====
section
/-! DEFINITION. The block's one condition (10_state.md rule R28), the codes of STATUS (30_encoding.md rule R83), and the
result port (rule R81): what the caller can observe (10_state.md rule R31), each element only inside its validity
(rule R33). CORE has no arithmetic flag (rule R28). -/

namespace Sys2Proof.Machine

/-- HDR_OK, 40_codec.md rule R101: true iff bit `hdrb` is 0. -/
def headerOk (h : Word) : Bool := getField .hdrb h == 0

/-- The codes of STATUS, 30_encoding.md rule R83 (decision D6; DESIGN CHOICE, log entry 12). -/
def Status.code : Status → BitVec 2
  | .ok => 0
  | .ioError => 1
  | .headerBadError => 2

/-- `rsp_done` of the result port (30_encoding.md rule R81). -/
def State.rspDone (s : State) : Bool := s.done

/-- `rsp_status`, valid while `rsp_done = 1` (30_encoding.md rule R81); outside that a fault (10_state.md rule R33). -/
def State.rspStatus (s : State) : Except Fault (BitVec 2) :=
  if s.done then .ok s.status.code else .error .noValue

/-- `rsp_rdata[k]`, valid while `rsp_done = 1`, `rsp_status = Ok`, the command was a read and `k < N` (30_encoding.md
rule R81); outside that a fault (10_state.md rule R33). -/
def State.rspRdata (s : State) (k : Nat) : Except Fault Word :=
  if s.done && s.status == .ok && s.op == 0 && decide (k < s.count) then
    match s.rdata[k]? with
    | some w => .ok w
    | none => .error .noValue
  else .error .noValue

/-- What a call of the engine returns (30_encoding.md rule R87). -/
inductive CallResult where
  /-- `Ok([w0, ..., wN-1])`. -/
  | words (ws : List Word)
  /-- `Ok(())`, a write. -/
  | unit
  /-- `Ok(w)`, a convenience read (rule R88). -/
  | word (w : Word)
  /-- `Err(kind)`. -/
  | err (kind : ErrorKind)
  deriving DecidableEq, Repr

/-- The result of the last call, read from the result port (30_encoding.md rules R81, R87 and R88); a fault while there
is none. -/
def State.callResult (s : State) : Except Fault CallResult :=
  if s.done then
    match s.status with
    | .ioError => .ok (.err .ioError)
    | .headerBadError => .ok (.err .headerBadError)
    | .ok =>
      if s.op = 1 then .ok .unit
      else if s.unwrap then
        match s.rdata with
        | w :: _ => .ok (.word w)
        | [] => .error .noValue
      else .ok (.words s.rdata)
  else .error .noValue

end Sys2Proof.Machine
end

