-- ==== Sys2Proof/Machine/Codec.lean ====
section
/-! DEFINITION. The meanings of the codec operations (40_codec.md): pure, total functions of their operands whose value
goes to the caller (rule R93). -/

namespace Sys2Proof.Machine

/-- ENCODE, 40_codec.md rule R97. -/
def execEncode (length address memmap : Nat) (aid wnr : BitVec 1) (s : State) : Host.Outcome State Fault Refusal :=
  .next (s.answer (.header (encodeHeader length address memmap aid wnr)))

/-- CALC_PARITY, rule R98. -/
def execCalcParity (h : Word) (s : State) : Host.Outcome State Fault Refusal :=
  .next (s.answer (.header (calcParity h)))

/-- TO_BYTES, rule R99. -/
def execToBytes (h : Word) (s : State) : Host.Outcome State Fault Refusal :=
  .next (s.answer (.bytes (be32 h)))

/-- FROM_BYTES, rule R100. -/
def execFromBytes (b0 b1 b2 b3 : Byte) (s : State) : Host.Outcome State Fault Refusal :=
  .next (s.answer (.header (unbe32 b0 b1 b2 b3)))

/-- HDR_OK, rule R101. -/
def execHdrOk (h : Word) (s : State) : Host.Outcome State Fault Refusal :=
  .next (s.answer (.bool (headerOk h)))

/-- GET_PARITY, rule R104. -/
def execGetParity (h : Word) (s : State) : Host.Outcome State Fault Refusal :=
  .next (s.answer (.bit (getField .parity h)))

/-- GET_LENGTH, rule R105. -/
def execGetLength (h : Word) (s : State) : Host.Outcome State Fault Refusal :=
  .next (s.answer (.length (getField .length h)))

/-- GET_ADDRESS, rule R106. -/
def execGetAddress (h : Word) (s : State) : Host.Outcome State Fault Refusal :=
  .next (s.answer (.address (getField .address h)))

/-- GET_MEMMAP, rule R107. -/
def execGetMemmap (h : Word) (s : State) : Host.Outcome State Fault Refusal :=
  .next (s.answer (.memmap (getField .memmap h)))

/-- GET_AID, rule R108. -/
def execGetAid (h : Word) (s : State) : Host.Outcome State Fault Refusal :=
  .next (s.answer (.bit (getField .aid h)))

/-- GET_WNR, rule R109. -/
def execGetWnr (h : Word) (s : State) : Host.Outcome State Fault Refusal :=
  .next (s.answer (.bit (getField .wnr h)))

/-- GET_HDRB, rule R110. -/
def execGetHdrb (h : Word) (s : State) : Host.Outcome State Fault Refusal :=
  .next (s.answer (.bit (getField .hdrb h)))

/-- GET_RESERVED, rule R111. -/
def execGetReserved (h : Word) (s : State) : Host.Outcome State Fault Refusal :=
  .next (s.answer (.bit (getField .reserved h)))

/-- SET_PARITY, rule R112. -/
def execSetParity (h : Word) (v : Nat) (s : State) : Host.Outcome State Fault Refusal :=
  .next (s.answer (.header (insField .parity h v)))

/-- SET_LENGTH, rule R113. -/
def execSetLength (h : Word) (v : Nat) (s : State) : Host.Outcome State Fault Refusal :=
  .next (s.answer (.header (insField .length h v)))

/-- SET_ADDRESS, rule R114. -/
def execSetAddress (h : Word) (v : Nat) (s : State) : Host.Outcome State Fault Refusal :=
  .next (s.answer (.header (insField .address h v)))

/-- SET_MEMMAP, rule R115. -/
def execSetMemmap (h : Word) (v : Nat) (s : State) : Host.Outcome State Fault Refusal :=
  .next (s.answer (.header (insField .memmap h v)))

/-- SET_AID, rule R116. -/
def execSetAid (h : Word) (v : Nat) (s : State) : Host.Outcome State Fault Refusal :=
  .next (s.answer (.header (insField .aid h v)))

/-- SET_WNR, rule R117. -/
def execSetWnr (h : Word) (v : Nat) (s : State) : Host.Outcome State Fault Refusal :=
  .next (s.answer (.header (insField .wnr h v)))

/-- SET_HDRB, rule R118. -/
def execSetHdrb (h : Word) (v : Nat) (s : State) : Host.Outcome State Fault Refusal :=
  .next (s.answer (.header (insField .hdrb h v)))

/-- SET_RESERVED, rule R119. -/
def execSetReserved (h : Word) (v : Nat) (s : State) : Host.Outcome State Fault Refusal :=
  .next (s.answer (.header (insField .reserved h v)))

end Sys2Proof.Machine
end

