-- ==== Sys2Proof/Machine/Engine.lean ====
section
/-! DEFINITION. The meanings of the engine operations and of the convenience reads (41_engine.md). A command's meaning
is step ACCEPT (rule R129) where it is enabled; the sequencer's own steps (Sequencer.lean) and the wire words
(Wire.lean) carry the transaction to its result, one rule a step (00_scope.md rule R6). -/

namespace Sys2Proof.Machine

/-- A command at the port (30_encoding.md rule R80): accepted when the engine is ready, and otherwise it waits there,
neither queued nor dropped (41_engine.md rule R147, decision D13; DESIGN CHOICE, log entry 13). -/
def offerCommand (s : State) (accepted : State) : Host.Outcome State Fault Refusal :=
  if s.cmdReady then .next accepted else .next s

/-- CONSTRUCT, 41_engine.md rule R124. A second one on the same instance has no meaning: construction happens once
(rule R124, 93_implementation_defined.md U21; DESIGN CHOICE, log entry 11). -/
def execConstruct (s : State) : Host.Outcome State Fault Refusal :=
  if s.owned then .refused .alreadyConstructed else .next s.takeTransport

/-- EXEC_READ, rule R126. A count outside 1 to 128 is refused before any state change (rules R125 and R160). -/
def execExecRead (address : BitVec 16) (memmap : BitVec 4) (registers : Nat) (s : State) :
    Host.Outcome State Fault Refusal :=
  if admitsRead registers then
    offerCommand s (s.accept 0 address memmap (lenOfCount registers) [] false)
  else .refused .notAdmitted

/-- EXEC_WRITE, rule R127. A count outside 1 to 128, or a payload of another size, is refused (rules R125 and R160). -/
def execExecWrite (address : BitVec 16) (memmap : BitVec 4) (registers : Nat) (payload : List Word) (s : State) :
    Host.Outcome State Fault Refusal :=
  if admitsWrite registers payload then
    offerCommand s (s.accept 1 address memmap (lenOfCount registers) payload false)
  else .refused .notAdmitted

/-- A convenience read: `execute(Read, address, 0, 1, none)` with its result unwrapped (30_encoding.md rule R88). -/
def convenienceRead (address : BitVec 16) (s : State) : Host.Outcome State Fault Refusal :=
  offerCommand s (s.accept 0 address standardMap (lenOfCount 1) [] true)

/-- GET_IDVER, 41_engine.md rule R139. -/
def execGetIdver (s : State) : Host.Outcome State Fault Refusal := convenienceRead idVerAddress s

/-- GET_PHYID, rule R140. -/
def execGetPhyid (s : State) : Host.Outcome State Fault Refusal := convenienceRead phyIdAddress s

/-- GET_CAPABILITY, rule R141. -/
def execGetCapability (s : State) : Host.Outcome State Fault Refusal := convenienceRead capabilityAddress s

end Sys2Proof.Machine
end

