-- ==== Sys2Proof/Machine/Wire.lean ====
section
/-! DEFINITION. The meanings of the wire words (30_encoding.md rules R77 and R78). A header at the front of the frame
being built is step FRAME (41_engine.md rule R131, rule R73); an echo in the received frame is steps VALIDATE and
EXTRACT (rules R136 and R137). DEDUCED: log entry 7 says why a wire word
has the meaning of its step. -/

namespace Sys2Proof.Machine

/-- Step FRAME, 41_engine.md rule R131: a fresh buffer, the serialised header, the zeroed echo slot, then the payload
slot; after it the exchange can start. -/
def State.frame (s : State) (h : Word) (payload : List Word) : Except Fault State :=
  match (s.withBuffer []).memWrite 0 (be32 h) with
  | .ok s1 =>
    match s1.memWrite Config.echoOff [0, 0, 0, 0] with
    | .ok s2 =>
      match s2.memWriteWords 0 payload with
      | .ok s3 => .ok s3.enterExchange
      | .error f => .error f
    | .error f => .error f
  | .error f => .error f

/-- The frame of a read command (30_encoding.md rule R73): N words of zeros in the payload slot. Enabled when `HDR` is
built in phase ENCODE (41_engine.md rule R131). -/
def frameRead (h : Word) (s : State) : Host.Outcome State Fault Refusal :=
  if s.phase = .encode ∧ s.hdrBuilt then outcomeOf (s.frame h (List.replicate s.count 0)) else .fault .offSequence

/-- The frame of a write command (30_encoding.md rule R73): the elements 0 to N-1 of WDATA. An element that holds no
value cannot be read (10_state.md rule R33). -/
def frameWrite (h : Word) (s : State) : Host.Outcome State Fault Refusal :=
  if s.phase = .encode ∧ s.hdrBuilt then
    if s.count ≤ s.wdata.length then outcomeOf (s.frame h (s.wdata.take s.count)) else .fault .noValue
  else .fault .offSequence

/-- HDR.CTRL_READ, 30_encoding.md rules R73 and R77. -/
def execHdrCtrlRead (p : BitVec 1) (l : BitVec 7) (a : BitVec 16) (m : BitVec 4) (i : BitVec 1) (s : State) :
    Host.Outcome State Fault Refusal :=
  frameRead (packHeader p l a m i 0 0 0) s

/-- HDR.CTRL_WRITE, 30_encoding.md rules R73 and R77. -/
def execHdrCtrlWrite (p : BitVec 1) (l : BitVec 7) (a : BitVec 16) (m : BitVec 4) (i : BitVec 1) (s : State) :
    Host.Outcome State Fault Refusal :=
  frameWrite (packHeader p l a m i 1 0 0) s

/-- HDR.ENGINE_READ, the header sent by EXEC_READ (30_encoding.md rule R78). -/
def execHdrEngineRead (p : BitVec 1) (l : BitVec 7) (a : BitVec 16) (m : BitVec 4) (s : State) :
    Host.Outcome State Fault Refusal :=
  frameRead (packHeader p l a m Config.engineAid 0 0 0) s

/-- HDR.ENGINE_WRITE, the header sent by EXEC_WRITE (30_encoding.md rule R78). -/
def execHdrEngineWrite (p : BitVec 1) (l : BitVec 7) (a : BitVec 16) (m : BitVec 4) (s : State) :
    Host.Outcome State Fault Refusal :=
  frameWrite (packHeader p l a m Config.engineAid 1 0 0) s

/-- Step EXTRACT, 41_engine.md rule R137: a read decodes its N words; a write reads nothing from the buffer. -/
def State.extract (s : State) : Except Fault State :=
  if s.op = 0 then
    match s.memReadWords 0 s.count with
    | .ok ws => .ok (s.complete ws)
    | .error f => .error f
  else .ok (s.complete s.rdata)

/-- ECHO.ACCEPT, 41_engine.md rules R136 and R137: the echo has `hdrb = 0`, so the payload is decoded. -/
def execEchoAccept (p : BitVec 1) (l : BitVec 7) (a : BitVec 16) (m : BitVec 4) (i w r : BitVec 1) (s : State) :
    Host.Outcome State Fault Refusal :=
  if s.phase = .validate then outcomeOf (s.latchEcho (packHeader p l a m i w 0 r)).extract else .fault .offSequence

/-- ECHO.REJECT, 41_engine.md rule R136 and 60_exceptions.md rule R155: the echo has `hdrb = 1`, so the transaction ends
with `HeaderBadError` and the payload is not read. -/
def execEchoReject (p : BitVec 1) (l : BitVec 7) (a : BitVec 16) (m : BitVec 4) (i w r : BitVec 1) (s : State) :
    Host.Outcome State Fault Refusal :=
  if s.phase = .validate then .next ((s.latchEcho (packHeader p l a m i w 1 r)).raise .headerBadError)
  else .fault .offSequence

end Sys2Proof.Machine
end

