-- ==== Sys2Proof/Machine/Dispatch.lean ====
section
/-! DEFINITION. One arm per instruction, each one direct call of its meaning. -/

namespace Sys2Proof.Machine

def exec (i : Instr) (s : State) : Host.Outcome State Fault Refusal :=
  match i with
  | .encode l a m d w => Sys2Proof.Machine.execEncode l a m d w s
  | .calcParity h => Sys2Proof.Machine.execCalcParity h s
  | .toBytes h => Sys2Proof.Machine.execToBytes h s
  | .fromBytes b0 b1 b2 b3 => Sys2Proof.Machine.execFromBytes b0 b1 b2 b3 s
  | .hdrOk h => Sys2Proof.Machine.execHdrOk h s
  | .getParity h => Sys2Proof.Machine.execGetParity h s
  | .getLength h => Sys2Proof.Machine.execGetLength h s
  | .getAddress h => Sys2Proof.Machine.execGetAddress h s
  | .getMemmap h => Sys2Proof.Machine.execGetMemmap h s
  | .getAid h => Sys2Proof.Machine.execGetAid h s
  | .getWnr h => Sys2Proof.Machine.execGetWnr h s
  | .getHdrb h => Sys2Proof.Machine.execGetHdrb h s
  | .getReserved h => Sys2Proof.Machine.execGetReserved h s
  | .setParity h v => Sys2Proof.Machine.execSetParity h v s
  | .setLength h v => Sys2Proof.Machine.execSetLength h v s
  | .setAddress h v => Sys2Proof.Machine.execSetAddress h v s
  | .setMemmap h v => Sys2Proof.Machine.execSetMemmap h v s
  | .setAid h v => Sys2Proof.Machine.execSetAid h v s
  | .setWnr h v => Sys2Proof.Machine.execSetWnr h v s
  | .setHdrb h v => Sys2Proof.Machine.execSetHdrb h v s
  | .setReserved h v => Sys2Proof.Machine.execSetReserved h v s
  | .construct => Sys2Proof.Machine.execConstruct s
  | .execRead a m n => Sys2Proof.Machine.execExecRead a m n s
  | .execWrite a m n ws => Sys2Proof.Machine.execExecWrite a m n ws s
  | .hdrCtrlRead p l a m d => Sys2Proof.Machine.execHdrCtrlRead p l a m d s
  | .hdrCtrlWrite p l a m d => Sys2Proof.Machine.execHdrCtrlWrite p l a m d s
  | .hdrEngineRead p l a m => Sys2Proof.Machine.execHdrEngineRead p l a m s
  | .hdrEngineWrite p l a m => Sys2Proof.Machine.execHdrEngineWrite p l a m s
  | .echoAccept p l a m d w r => Sys2Proof.Machine.execEchoAccept p l a m d w r s
  | .echoReject p l a m d w r => Sys2Proof.Machine.execEchoReject p l a m d w r s
  | .getIdver => Sys2Proof.Machine.execGetIdver s
  | .getPhyid => Sys2Proof.Machine.execGetPhyid s
  | .getCapability => Sys2Proof.Machine.execGetCapability s

end Sys2Proof.Machine
end

