-- ==== Sys2Proof/WellFormed.lean ====
section
/-! DEFINITION. Which instructions are well formed: those some word of the machine stands for. The checks are on
operands only; no check is a behaviour of CORE (a step runs whatever it decodes). -/

namespace Sys2Proof

/-- A natural operand fits the 32-bit operand word of a call image (DESIGN CHOICE, log entry 9). -/
def Instr.natFits (v : Nat) : Bool := decide (v < 2 ^ 32)

/-- Well-formedness: natural operands fit their operand words; the admission conditions of 41_engine.md rule R125;
a command header that is not the engine's has `aid = 0`, and one that is has odd parity (30_encoding.md rule R78). -/
def Instr.wellFormed : Instr → Bool
  | .encode length address memmap _ _ => natFits length && natFits address && natFits memmap
  | .calcParity _ => true
  | .toBytes _ => true
  | .fromBytes _ _ _ _ => true
  | .hdrOk _ => true
  | .getParity _ => true
  | .getLength _ => true
  | .getAddress _ => true
  | .getMemmap _ => true
  | .getAid _ => true
  | .getWnr _ => true
  | .getHdrb _ => true
  | .getReserved _ => true
  | .setParity _ v => natFits v
  | .setLength _ v => natFits v
  | .setAddress _ v => natFits v
  | .setMemmap _ v => natFits v
  | .setAid _ v => natFits v
  | .setWnr _ v => natFits v
  | .setHdrb _ v => natFits v
  | .setReserved _ v => natFits v
  | .construct => true
  | .execRead _ _ registers => Machine.admitsRead registers
  | .execWrite _ _ registers payload => Machine.admitsWrite registers payload
  | .hdrCtrlRead _ _ _ _ aid => aid == 0
  | .hdrCtrlWrite _ _ _ _ aid => aid == 0
  | .hdrEngineRead p l a m => Machine.oddParity (Machine.packHeader p l a m Config.engineAid 0 0 0)
  | .hdrEngineWrite p l a m => Machine.oddParity (Machine.packHeader p l a m Config.engineAid 1 0 0)
  | .echoAccept _ _ _ _ _ _ _ => true
  | .echoReject _ _ _ _ _ _ _ => true
  | .getIdver => true
  | .getPhyid => true
  | .getCapability => true

end Sys2Proof
end

