-- ==== Sys2Proof/Decode.lean ====
section
/-! DEFINITION. The decoder, total on any image, rejecting by name, and after it the encoder. A call image is a byte
whose low five bits are the selector `opsel` of 30_encoding.md rule R79, then the operands, most significant byte
first (the operand bytes are the model's: DESIGN CHOICE, log entry 9); a wire word is one 32-bit header (rules R64 and R77). -/

namespace Sys2Proof

/-- Why an image is no instruction. -/
inductive DecodeError where
  /-- The caller's call is shorter than the operands of its operation (or empty): no such call can be formed. -/
  | truncatedCall
  /-- The selector names no operation (30_encoding.md rule R84). -/
  | noSuchOperation (opsel : BitVec 5)
  /-- The word is not the header of a convenience read (rule R88). -/
  | noSuchConvenience (h : Word)
  /-- The word is in neither command class of rule R77: it has `hdrb = 1` or `reserved = 1`. -/
  | notACommandHeader (h : Word)
  deriving DecidableEq, Repr

/-- A 32-bit operand, most significant byte first, and the bytes after it. -/
def takeWord : List Byte → Option (Word × List Byte)
  | b0 :: b1 :: b2 :: b3 :: rest => some (Machine.unbe32 b0 b1 b2 b3, rest)
  | _ => none

/-- `n` words of payload, most significant byte first (30_encoding.md rule R76). -/
def takeWords : Nat → List Byte → Option (List Word)
  | 0, _ => some []
  | n + 1, bs =>
    match takeWord bs with
    | some (w, rest) => (takeWords n rest).map (w :: ·)
    | none => none

/-- The operand of a codec operation that takes one header. -/
def decodeHeaderOperand (k : Word → Instr) (bs : List Byte) : Except DecodeError Instr :=
  match takeWord bs with
  | some (h, _) => .ok (k h)
  | none => .error .truncatedCall

/-- The operands of a setter: a header and a natural number. -/
def decodeSetterOperands (k : Word → Nat → Instr) (bs : List Byte) : Except DecodeError Instr :=
  match takeWord bs with
  | some (h, rest) =>
    match takeWord rest with
    | some (v, _) => .ok (k h v.toNat)
    | none => .error .truncatedCall
  | none => .error .truncatedCall

/-- The operands of ENCODE: three natural numbers, then one byte with `aid` and one with `wnr` (bit 0 of each). -/
def decodeEncodeOperands (bs : List Byte) : Except DecodeError Instr :=
  match takeWord bs with
  | some (l, r1) =>
    match takeWord r1 with
    | some (a, r2) =>
      match takeWord r2 with
      | some (m, i :: w :: _) => .ok (.encode l.toNat a.toNat m.toNat (i.setWidth 1) (w.setWidth 1))
      | _ => .error .truncatedCall
    | none => .error .truncatedCall
  | none => .error .truncatedCall

/-- The four bytes of FROM_BYTES, the first received first (40_codec.md rule R100). -/
def decodeFourBytes : List Byte → Except DecodeError Instr
  | b0 :: b1 :: b2 :: b3 :: _ => .ok (.fromBytes b0 b1 b2 b3)
  | _ => .error .truncatedCall

/-- The command port's fields for a read, 30_encoding.md rule R80: `cmd_addr` in two bytes, `cmd_memmap` in the low
four bits of one byte, `cmd_len` in the low seven bits of one byte. `cmd_wdata` is ignored on a read. -/
def decodeReadOperands : List Byte → Except DecodeError Instr
  | a1 :: a0 :: m :: l :: _ =>
    .ok (.execRead (a1 ++ a0) (m.setWidth 4) (Machine.countOfLen (l.setWidth 7)))
  | _ => .error .truncatedCall

/-- The command port's fields for a write: as for a read, then `cmd_wdata[0 .. cmd_len]`; later elements are ignored
(30_encoding.md rule R84). -/
def decodeWriteOperands : List Byte → Except DecodeError Instr
  | a1 :: a0 :: m :: l :: rest =>
    match takeWords (Machine.countOfLen (l.setWidth 7)) rest with
    | some ws => .ok (.execWrite (a1 ++ a0) (m.setWidth 4) (Machine.countOfLen (l.setWidth 7)) ws)
    | none => .error .truncatedCall
  | _ => .error .truncatedCall

/-- The selector table of 30_encoding.md rule R79. -/
def decodeSelector (sel : BitVec 5) (bs : List Byte) : Except DecodeError Instr :=
  match sel.toNat with
  | 0x00 => decodeEncodeOperands bs
  | 0x01 => decodeHeaderOperand .calcParity bs
  | 0x02 => decodeHeaderOperand .toBytes bs
  | 0x03 => decodeFourBytes bs
  | 0x04 => decodeHeaderOperand .hdrOk bs
  | 0x08 => decodeHeaderOperand .getParity bs
  | 0x09 => decodeHeaderOperand .getLength bs
  | 0x0A => decodeHeaderOperand .getAddress bs
  | 0x0B => decodeHeaderOperand .getMemmap bs
  | 0x0C => decodeHeaderOperand .getAid bs
  | 0x0D => decodeHeaderOperand .getWnr bs
  | 0x0E => decodeHeaderOperand .getHdrb bs
  | 0x0F => decodeHeaderOperand .getReserved bs
  | 0x10 => decodeSetterOperands .setParity bs
  | 0x11 => decodeSetterOperands .setLength bs
  | 0x12 => decodeSetterOperands .setAddress bs
  | 0x13 => decodeSetterOperands .setMemmap bs
  | 0x14 => decodeSetterOperands .setAid bs
  | 0x15 => decodeSetterOperands .setWnr bs
  | 0x16 => decodeSetterOperands .setHdrb bs
  | 0x17 => decodeSetterOperands .setReserved bs
  | 0x18 => .ok .construct
  | 0x1A => decodeReadOperands bs
  | 0x1B => decodeWriteOperands bs
  | _ => .error (.noSuchOperation sel)

/-- A call image: the selector is the low five bits of the first byte (table mask 0x1F). -/
def decodeOp : List Byte → Except DecodeError Instr
  | [] => .error .truncatedCall
  | b :: rest => decodeSelector (b.setWidth 5) rest

/-- The three convenience reads, each the exact header it sends (30_encoding.md rules R78, R88 and R92). -/
def decodeConvenience (h : Word) : Except DecodeError Instr :=
  if h = Machine.convenienceHeader Machine.idVerAddress then .ok .getIdver
  else if h = Machine.convenienceHeader Machine.phyIdAddress then .ok .getPhyid
  else if h = Machine.convenienceHeader Machine.capabilityAddress then .ok .getCapability
  else .error (.noSuchConvenience h)

/-- An outbound header in its class (rules R77 and R78): the engine's own if `aid` is as the engine builds it, any other
command header if it is not, and no class if `hdrb = 1` or `reserved = 1`. -/
def decodeSent (h : Word) : Except DecodeError Instr :=
  let p := Machine.getField .parity h
  let l := Machine.getField .length h
  let a := Machine.getField .address h
  let m := Machine.getField .memmap h
  let i := Machine.getField .aid h
  if Machine.getField .hdrb h = 0 ∧ Machine.getField .reserved h = 0 then
    if i = Config.engineAid then
      if Machine.getField .wnr h = 0 then .ok (.hdrEngineRead p l a m) else .ok (.hdrEngineWrite p l a m)
    else if Machine.getField .wnr h = 0 then .ok (.hdrCtrlRead p l a m i) else .ok (.hdrCtrlWrite p l a m i)
  else .error (.notACommandHeader h)

/-- A received header in its class (rule R77), by `hdrb` alone (rule R101): the two echo classes cover every word (rules
R85 and R91). -/
def decodeReceived (h : Word) : Instr :=
  let p := Machine.getField .parity h
  let l := Machine.getField .length h
  let a := Machine.getField .address h
  let m := Machine.getField .memmap h
  let i := Machine.getField .aid h
  let w := Machine.getField .wnr h
  let r := Machine.getField .reserved h
  if Machine.getField .hdrb h = 0 then .echoAccept p l a m i w r else .echoReject p l a m i w r

/-- The decoder: one function over the places an instruction can stand. -/
def decode : Image → Except DecodeError Instr
  | .call (.op bytes) => decodeOp bytes
  | .call (.convenience h) => decodeConvenience h
  | .sent h => decodeSent h
  | .received h => .ok (decodeReceived h)

/-- The bytes of a natural operand: its low 32 bits, most significant byte first. -/
def natBytes (v : Nat) : List Byte := Machine.be32 (BitVec.ofNat 32 v)

/-- The command port's bytes for address, memory map and count (30_encoding.md rule R80). -/
def portBytes (address : BitVec 16) (memmap : BitVec 4) (registers : Nat) : List Byte :=
  [address.extractLsb' 8 8, address.extractLsb' 0 8, memmap.setWidth 8, (Machine.lenOfCount registers).setWidth 8]

/-- A call image: selector byte, then operands. -/
def opImage (opsel : Byte) (operands : List Byte) : Image := .call (.op (opsel :: operands))

/-- The encoder: the image of an instruction, from the same tables (rules R64, R77, R78 and R79). -/
def encode : Instr → Image
  | .encode l a m i w => opImage 0x00 (natBytes l ++ natBytes a ++ natBytes m ++ [i.setWidth 8, w.setWidth 8])
  | .calcParity h => opImage 0x01 (Machine.be32 h)
  | .toBytes h => opImage 0x02 (Machine.be32 h)
  | .fromBytes b0 b1 b2 b3 => opImage 0x03 [b0, b1, b2, b3]
  | .hdrOk h => opImage 0x04 (Machine.be32 h)
  | .getParity h => opImage 0x08 (Machine.be32 h)
  | .getLength h => opImage 0x09 (Machine.be32 h)
  | .getAddress h => opImage 0x0A (Machine.be32 h)
  | .getMemmap h => opImage 0x0B (Machine.be32 h)
  | .getAid h => opImage 0x0C (Machine.be32 h)
  | .getWnr h => opImage 0x0D (Machine.be32 h)
  | .getHdrb h => opImage 0x0E (Machine.be32 h)
  | .getReserved h => opImage 0x0F (Machine.be32 h)
  | .setParity h v => opImage 0x10 (Machine.be32 h ++ natBytes v)
  | .setLength h v => opImage 0x11 (Machine.be32 h ++ natBytes v)
  | .setAddress h v => opImage 0x12 (Machine.be32 h ++ natBytes v)
  | .setMemmap h v => opImage 0x13 (Machine.be32 h ++ natBytes v)
  | .setAid h v => opImage 0x14 (Machine.be32 h ++ natBytes v)
  | .setWnr h v => opImage 0x15 (Machine.be32 h ++ natBytes v)
  | .setHdrb h v => opImage 0x16 (Machine.be32 h ++ natBytes v)
  | .setReserved h v => opImage 0x17 (Machine.be32 h ++ natBytes v)
  | .construct => opImage 0x18 []
  | .execRead a m n => opImage 0x1A (portBytes a m n)
  | .execWrite a m n ws => opImage 0x1B (portBytes a m n ++ ws.flatMap Machine.be32)
  | .hdrCtrlRead p l a m i => .sent (Machine.packHeader p l a m i 0 0 0)
  | .hdrCtrlWrite p l a m i => .sent (Machine.packHeader p l a m i 1 0 0)
  | .hdrEngineRead p l a m => .sent (Machine.packHeader p l a m Config.engineAid 0 0 0)
  | .hdrEngineWrite p l a m => .sent (Machine.packHeader p l a m Config.engineAid 1 0 0)
  | .echoAccept p l a m i w r => .received (Machine.packHeader p l a m i w 0 r)
  | .echoReject p l a m i w r => .received (Machine.packHeader p l a m i w 1 r)
  | .getIdver => .call (.convenience (Machine.convenienceHeader Machine.idVerAddress))
  | .getPhyid => .call (.convenience (Machine.convenienceHeader Machine.phyIdAddress))
  | .getCapability => .call (.convenience (Machine.convenienceHeader Machine.capabilityAddress))

/-- The length of the longest call image: EXEC_WRITE with 128 words. -/
def longestCall : Nat := 1 + 4 + 4 * Config.nMax

/-- The `n` low bytes of `w`, the least significant first. -/
def lowBytes : Nat → Nat → List Byte
  | 0, _ => []
  | n + 1, w => BitVec.ofNat 8 w :: lowBytes n (w / 256)

/-- A call image with the table's bits and zeros above them, up to the longest call; bytes an operation does not use
are ignored. -/
def tableCall (nbits w : Nat) : List Byte :=
  let low := lowBytes ((nbits + 7) / 8) w
  low ++ List.replicate (longestCall - low.length) 0

/-- Where a table row's word stands: a row of fewer than 32 bits is a selector, hence a call; a 32-bit row is a header
word, in the most specific place that has a meaning for it (DESIGN CHOICE, log entry 8). -/
def tableImage (nbits w : Nat) : Image :=
  if nbits < 32 then .call (.op (tableCall nbits w))
  else
    let h : Word := BitVec.ofNat 32 w
    match decodeConvenience h with
    | .ok _ => .call (.convenience h)
    | .error _ =>
      match decodeSent h with
      | .ok _ => .sent h
      | .error _ => .received h

/-- The instruction the decoder reads from a row's bits (the host's fixed name). -/
def decodeTableWord (nbits w : Nat) : Option Instr := (decode (tableImage nbits w)).toOption

end Sys2Proof
end

