-- ==== Sys2Proof/Machine/Sequencer.lean ====
section
/-! DEFINITION. What the sequencer does on its own: where it finds its next instruction in each phase, the steps that
are no instruction of the table (ENCODE, EXCHANGE), and the placing of one instruction where it is found next. -/

namespace Sys2Proof.Machine

/-- What the sequencer finds to do. -/
inductive Fetched where
  /-- An instruction to run. -/
  | instr (i : Instr)
  /-- No call is offered: the engine is idle (30_encoding.md rule R80, `cmd_valid = 0`). -/
  | nothing
  /-- An image that is no instruction. -/
  | bad (r : Refusal)
  /-- The place where the instruction stands holds no value. -/
  | noImage (f : Fault)
  deriving DecidableEq, Repr

/-- The refusal a decoding error turns into. -/
def refusalOf : DecodeError → Refusal
  | .truncatedCall => .truncatedCall
  | .noSuchOperation opsel => .noSuchOperation opsel
  | .noSuchConvenience h => .noSuchConvenience h
  | .notACommandHeader h => .notACommandHeader h

/-- What decoding an image gives the sequencer. -/
def fetchImage (image : Image) : Fetched :=
  match decode image with
  | .ok i => .instr i
  | .error e => .bad (refusalOf e)

/-- In IDLE: the oldest call offered (30_encoding.md rule R80). -/
def fetchCall (s : State) : Fetched :=
  match s.calls with
  | c :: _ => fetchImage (.call c)
  | [] => .nothing

/-- In ENCODE: the header at the front of the frame to build (41_engine.md rule R131). -/
def fetchHeader (s : State) : Fetched := fetchImage (.sent s.hdr)

/-- In VALIDATE: `FROM_BYTES(MemRead(4, 4))`, the echoed header (41_engine.md rule R136). -/
def fetchEcho (s : State) : Fetched :=
  match s.memRead Config.echoOff Config.hdrBytes with
  | .ok [b0, b1, b2, b3] => fetchImage (.received (unbe32 b0 b1 b2 b3))
  | .ok _ => .noImage .noValue
  | .error f => .noImage f

/-- Step ENCODE, 41_engine.md rule R130. -/
def encodeStep (s : State) : Host.Outcome State Fault Refusal := .next s.buildHeader

/-- A byte step of the exchange, 41_engine.md rule R134, `t` being the byte at BIDX. `t` is on the line in the byte time
in which the transport answers, a byte or a failure alike; while it has not answered the byte time has not passed, and
`t` is not recorded as sent (DESIGN CHOICE, log entry 17). -/
def byteStep (s : State) (t : Byte) : Host.Outcome State Fault Refusal :=
  match s.nextAnswer (s.sent ++ [t]) with
  | .wait => .next s.useAnswer
  | .fail => .next ((s.useAnswer.putOnLine t).raise .ioError)
  | .go r => .next ((s.useAnswer.putOnLine t).exchangeByte r)

/-- The final step of the exchange, 41_engine.md rule R134: the transport may still declare failure. -/
def finalStep (s : State) : Host.Outcome State Fault Refusal :=
  match s.nextAnswer s.sent with
  | .wait => .next s.useAnswer
  | .fail => .next (s.useAnswer.raise .ioError)
  | .go _ => .next s.useAnswer.enterValidate

/-- Step EXCHANGE at byte grain, 41_engine.md rule R134 (DESIGN CHOICE, log entry 17; `BIDX > L` is log entry 24). -/
def exchangeStep (s : State) : Host.Outcome State Fault Refusal :=
  if s.bidx.toNat < s.frameLen then
    match Memory.read s.tb s.bidx.toNat with
    | some t => byteStep s t
    | none => .fault .noValue
  else if s.bidx.toNat = s.frameLen then finalStep s
  else .fault .offSequence

/-- `s` with a call offered next: the sequencer is in IDLE, no reset is requested, and, where the call is a command, the
engine holds the transport, without which no command is accepted (41_engine.md rule R147). -/
def State.placeCall (s : State) (c : Call) (isCommand : Bool) : State :=
  { s with phase := .idle, resetReq := false, calls := c :: s.calls, owned := s.owned || isCommand }

/-- `s` with a transaction in flight whose built header is `h`: the latches as `h` says and, for a write, a payload of
zero words (operand words of zeros). -/
def State.placeHeader (s : State) (h : Word) : State :=
  { s with
    owned := true, phase := .encode, done := false, hdrBuilt := true, hdr := h,
    op := getField .wnr h, addr := getField .address h, mm := getField .memmap h, len := getField .length h,
    wdata := if getField .wnr h = 1 then List.replicate (countOfLen (getField .length h)) 0 else s.wdata }

/-- `s` with a transaction in flight whose exchange has ended and left the echo `h`, every other byte of the frame being
zero. -/
def State.placeEcho (s : State) (h : Word) : State :=
  { s with
    owned := true, phase := .validate, done := false,
    tb := Memory.writeList [] 0 (be32 0 ++ be32 h ++ List.replicate (4 * s.count) 0) }

/-- An engine command or a convenience read: an instruction that needs the command port to be ready. -/
def isCommand : Instr → Bool
  | .execRead _ _ _ => true
  | .execWrite _ _ _ _ => true
  | .getIdver => true
  | .getPhyid => true
  | .getCapability => true
  | _ => false

/-- `s` with an image placed where the sequencer finds its next instruction. -/
def State.placeImage (s : State) (image : Image) : State :=
  match image with
  | .call c =>
    match decode (.call c) with
    | .ok i => s.placeCall c (isCommand i)
    | .error _ => s.placeCall c false
  | .sent h => s.placeHeader h
  | .received h => s.placeEcho h

end Sys2Proof.Machine
end

