-- ==== Sys2Proof/Machine/Step.lean ====
section
/-! DEFINITION. One step of the machine: the sequencer's phase says what is done (10_state.md rule R22, 41_engine.md rule
R145). -/

namespace Sys2Proof.Machine

/-- What was fetched is run. -/
def runFetched (s : State) : Fetched → Host.Outcome State Fault Refusal
  | .instr i => exec i s
  | .nothing => .next s
  | .bad r => .refused r
  | .noImage f => .fault f

/-- One step. In IDLE a requested reset is served first (70_reset_and_hazards.md rule R179: in no other phase), and else
the oldest call is run; in the other phases the transaction in flight goes on. -/
def step (s : State) : Host.Outcome State Fault Refusal :=
  match s.phase with
  | .idle => if s.resetReq then .next s.hwReset else runFetched s (fetchCall s)
  | .encode => if s.hdrBuilt then runFetched s (fetchHeader s) else encodeStep s
  | .exchange => exchangeStep s
  | .validate => runFetched s (fetchEcho s)

/-- `s` with the instruction of a table row's bits where step finds its next instruction (the host's fixed name). -/
def State.withFetchWord (s : State) (nbits w : Nat) : State := s.placeImage (tableImage nbits w)

end Sys2Proof.Machine
end

