-- ==== Sys2Proof/Machine/Execute.lean ====
section
/-! DEFINITION. The big-step form of a transaction (41_engine.md rule R128): the bytes it transmits and its result, as
functions of the command and of the exchange's outcome, beside the atomic form of the exchange (rule R133). No step uses
them; rule R138 says that the steps agree with them. -/

namespace Sys2Proof.Machine

/-- The operands of `execute` (41_engine.md rule R123). -/
structure Command where
  op : BitVec 1
  address : BitVec 16
  memmap : BitVec 4
  registers : Nat
  payload : List Word
  deriving DecidableEq, Repr

/-- The admission conditions, 41_engine.md rule R125. -/
def Command.admitted (c : Command) : Bool :=
  if c.op = 1 then admitsWrite c.registers c.payload else admitsRead c.registers

/-- The command an engine operation or a convenience read stands for (41_engine.md rules R126, R127 and R139 to R141). -/
def commandOf : Instr → Option Command
  | .execRead a m n => some ⟨0, a, m, n, []⟩
  | .execWrite a m n ws => some ⟨1, a, m, n, ws⟩
  | .getIdver => some ⟨0, 0x0000, 0, 1, []⟩
  | .getPhyid => some ⟨0, 0x0001, 0, 1, []⟩
  | .getCapability => some ⟨0, 0x0002, 0, 1, []⟩
  | _ => none

/-- A convenience read: the pseudo-operations of 30_encoding.md rule R88. -/
def isConvenience : Instr → Bool
  | .getIdver => true
  | .getPhyid => true
  | .getCapability => true
  | _ => false

/-- `L = 8 + 4N` (41_engine.md rule R128, step 2). -/
def Command.length (c : Command) : Nat := 8 + 4 * c.registers

/-- `TX`: the bytes a transaction transmits (41_engine.md rule R128, steps 1 and 2). -/
def Command.transmits (c : Command) : List Byte :=
  be32 (encodeHeader (c.registers - 1) c.address.toNat c.memmap.toNat 1 c.op) ++ [0, 0, 0, 0] ++
    (if c.op = 1 then c.payload else List.replicate c.registers 0).flatMap be32

/-- The outcome of one exchange: `Ok(RX)`, or `Fail` after some bytes had been exchanged (41_engine.md rules R132 and
R134). -/
inductive Answer where
  | ok (rx : List Byte)
  | fail (early : List Byte)
  deriving DecidableEq, Repr

/-- The outcome fits a frame of `l` bytes: `RX` is exactly `l` bytes, and a failure comes after at most `l`. -/
def Answer.fits (l : Nat) : Answer → Prop
  | .ok rx => rx.length = l
  | .fail early => early.length ≤ l

/-- How many bytes the engine has put on the line when a frame of `l` bytes has this outcome: one for each byte received
and, where the transport fails in a byte time (not in the final step), the one of that byte time (41_engine.md rule
R134). -/
def Answer.sentCount (l : Nat) : Answer → Nat
  | .ok rx => rx.length
  | .fail early => min (early.length + 1) l

/-- The byte-level answers of the transport that make up an outcome (41_engine.md rule R134). -/
def Answer.events : Answer → List LineEvent
  | .ok rx => rx.map .go ++ [.go 0]
  | .fail early => early.map .go ++ [.fail]

/-- Answers with any number of waits before each (41_engine.md rule R148: the transport may take any time). -/
def delayed : List Nat → List LineEvent → List LineEvent
  | n :: ns, e :: es => List.replicate n .wait ++ e :: delayed ns es
  | _, es => es

/-- The result of `execute` (41_engine.md rule R128, steps 4 to 6): a function of `op` and the outcome. -/
def executeResult (op : BitVec 1) : Answer → CallResult
  | .fail _ => .err .ioError
  | .ok rx =>
    if headerOk (unbe32 (rx.getD 4 0) (rx.getD 5 0) (rx.getD 6 0) (rx.getD 7 0)) then
      if op = 1 then .unit else .words (wordsOf (rx.drop 8))
    else .err .headerBadError

/-- The result of a convenience read: `Ok([w])` becomes `Ok(w)`, errors unchanged (30_encoding.md rule R88). -/
def unwrapResult : CallResult → CallResult
  | .words [w] => .word w
  | r => r

/-- The result a call returns for an outcome. -/
def callResultOf (i : Instr) (op : BitVec 1) (answer : Answer) : CallResult :=
  if isConvenience i then unwrapResult (executeResult op answer) else executeResult op answer

/-- Step EXCHANGE in its atomic form, 41_engine.md rule R133: what one call of the transport does to CORE. -/
def State.exchangeAtomic (s : State) : Answer → State
  | .ok rx => { s with tb := Memory.writeList s.tb 0 rx, phase := .validate }
  | .fail _ => s.raise .ioError

end Sys2Proof.Machine
end

