-- ==== Sys2Proof/Safety.lean ====
section
/-! DEFINITION. The terms the claims use: the machine's invariant, readiness, and which instructions are of which kind. -/

namespace Sys2Proof.Machine

/-- The invariant of one engine instance: what 10_state.md and 20_memory.md say of the elements in each phase. -/
structure State.Inv (s : State) : Prop where
  /-- The buffer keeps its canonical form. -/
  bufferWf : Memory.wf s.tb
  /-- No byte at or above `L` holds a value (20_memory.md rule R42). -/
  bufferInside : ∀ c ∈ s.tb, c.1 < s.frameLen
  /-- The buffer has no value before FRAME and after the result (10_state.md rule R35). -/
  bufferEmpty : s.phase = .idle ∨ s.phase = .encode → s.tb = []
  /-- Every byte of `[0, L)` holds a value from FRAME on (20_memory.md rule R41). -/
  bufferFull : s.phase = .exchange ∨ s.phase = .validate → ∀ a < s.frameLen, (Memory.read s.tb a).isSome
  /-- A transaction is in flight only in an engine that owns its transport, and has no result yet (rules R18, R27). -/
  busyOwned : s.phase ≠ .idle → s.owned = true ∧ s.done = false
  /-- A result is present only in an engine that was constructed (rule R18). -/
  doneOwned : s.done = true → s.owned = true
  /-- HDR, once built, is the header of the latched command (rule R24). -/
  header : s.phase ≠ .idle → s.hdrBuilt = true →
    s.hdr = encodeHeader s.len.toNat s.addr.toNat s.mm.toNat Config.engineAid s.op
  /-- After FRAME the header is built (41_engine.md rule R131). -/
  headerBuilt : s.phase = .exchange ∨ s.phase = .validate → s.hdrBuilt = true
  /-- A write holds exactly N payload words (10_state.md rule R20). -/
  payload : s.phase ≠ .idle → s.op = 1 → s.wdata.length = s.count
  /-- BIDX is in 0 to L (rule R23). -/
  index : s.phase = .exchange → s.bidx.toNat ≤ s.frameLen
  /-- RDATA has N elements after a completed read (rule R20). -/
  resultRead : s.done = true → s.status = .ok → s.op = 0 → s.rdata.length = s.count
  /-- RDATA has no element otherwise (rules R20 and R33). -/
  resultNone : ¬(s.done = true ∧ s.status = .ok ∧ s.op = 0) → s.rdata = []

/-- `k` steps of the machine, over its own state type. -/
def run (k : Nat) (s : State) : Host.Outcome State Fault Refusal := core.run k s

/-- The codec operations (40_codec.md). -/
def isCodec : Instr → Bool
  | .encode _ _ _ _ _ => true
  | .calcParity _ => true
  | .toBytes _ => true
  | .fromBytes _ _ _ _ => true
  | .hdrOk _ => true
  | .getParity _ => true
  | .getLength _ => true
  | .getAddress _ => true
  | .getMemmap _ => true
  | .getAid _ => true
  | .getWnr _ => true
  | .getHdrb _ => true
  | .getReserved _ => true
  | .setParity _ _ => true
  | .setLength _ _ => true
  | .setAddress _ _ => true
  | .setMemmap _ _ => true
  | .setAid _ _ => true
  | .setWnr _ _ => true
  | .setHdrb _ _ => true
  | .setReserved _ _ => true
  | _ => false

/-- The setter of a field (40_codec.md rules R112 to R119). -/
def setterOf : Field → Word → Nat → Instr
  | .parity => .setParity
  | .length => .setLength
  | .address => .setAddress
  | .memmap => .setMemmap
  | .aid => .setAid
  | .wnr => .setWnr
  | .hdrb => .setHdrb
  | .reserved => .setReserved

/-- Every element of one engine instance is the same in two states (the table of 10_state.md rule R17, with the
condition of 41_engine.md rule R131). -/
def State.sameCore (s t : State) : Prop :=
  t.owned = s.owned ∧ t.phase = s.phase ∧ t.op = s.op ∧ t.addr = s.addr ∧ t.mm = s.mm ∧ t.len = s.len ∧
    t.wdata = s.wdata ∧ t.hdr = s.hdr ∧ t.hdrBuilt = s.hdrBuilt ∧ t.tb = s.tb ∧ t.bidx = s.bidx ∧ t.echo = s.echo ∧
    t.done = s.done ∧ t.status = s.status ∧ t.rdata = s.rdata

/-- Every byte of the frame `[0, L)` holds a value (20_memory.md rule R41: so it is from FRAME on). -/
def State.bufferFilled (s : State) : Prop := ∀ a < s.frameLen, (Memory.read s.tb a).isSome

/-- The edges of the phase graph (10_state.md rule R22), with staying in a phase; VALIDATE is never kept, since VALIDATE
and EXTRACT are one step (DESIGN CHOICE, log entry 23). -/
def phaseEdge : Phase → Phase → Bool
  | .idle, .idle => true
  | .idle, .encode => true
  | .encode, .encode => true
  | .encode, .exchange => true
  | .exchange, .exchange => true
  | .exchange, .validate => true
  | .exchange, .idle => true
  | .validate, .idle => true
  | _, _ => false

/-- The engine can take the call at the head of the port, and it is `i`: constructed, idle, no reset requested. -/
def State.Offers (s : State) (i : Instr) (rest : List Call) : Prop :=
  s.owned = true ∧ s.phase = .idle ∧ s.resetReq = false ∧
    ∃ c, s.calls = c :: rest ∧ decode (.call c) = .ok i

end Sys2Proof.Machine
end

