-- ==== Sys2Proof/Certificates/Slice0/Obligations.lean ====
section
/-! DEFINITION. The statements for the provers. Each docstring names the rule of spec/ the statement formalises, or the
sections it rests on and the log entry of a choice of the model's. -/

open Sys2Proof Sys2Proof.Machine

/-! ### The codec (40_codec.md) -/

/-- Rule R97: ENCODE completes on every operand, in range or not, with the header that has each field reduced to its
width, `hdrb = 0`, `reserved = 0`, and odd parity. -/
def Obligations.EncodeBuildsTheHeader : Prop :=
  ∀ (l a m : Nat) (d w : BitVec 1) (s : State), ∃ t h, exec (.encode l a m d w) s = .next t ∧
    t.codecOut = .header h ∧
    getField .length h = BitVec.ofNat 7 l ∧ getField .address h = BitVec.ofNat 16 a ∧
    getField .memmap h = BitVec.ofNat 4 m ∧ getField .aid h = d ∧ getField .wnr h = w ∧
    getField .hdrb h = 0 ∧ getField .reserved h = 0 ∧ oddParity h = true

/-- Rule R98: CALC_PARITY changes bit 0 only, which becomes 1 exactly when the other 31 bits hold an even number of
ones; the total is then odd, and a second application changes nothing. -/
def Obligations.CalcParityMakesTheCountOdd : Prop :=
  ∀ (h : Word) (s : State), ∃ t h', exec (.calcParity h) s = .next t ∧ t.codecOut = .header h' ∧
    (∀ i, i ≠ 0 → h'.getLsbD i = h.getLsbD i) ∧
    (h'.getLsbD 0 = true ↔ popcount (h &&& 0xFFFFFFFE#32) % 2 = 0) ∧
    popcount h' % 2 = 1 ∧
    ∃ u, exec (.calcParity h') t = .next u ∧ u.codecOut = .header h'

/-- Rule R103: the parity law, for every input of CALC_PARITY and for every operand of ENCODE. -/
def Obligations.ParityLawHolds : Prop :=
  (∀ (h : Word) (s : State), ∃ t h', exec (.calcParity h) s = .next t ∧ t.codecOut = .header h' ∧
    popcount h' % 2 = 1) ∧
  (∀ (l a m : Nat) (d w : BitVec 1) (s : State), ∃ t h', exec (.encode l a m d w) s = .next t ∧
    t.codecOut = .header h' ∧ popcount h' % 2 = 1)

/-- Rule R99: TO_BYTES gives four bytes, the most significant first, and changes no bit. -/
def Obligations.ToBytesIsBigEndian : Prop :=
  ∀ (h : Word) (s : State), ∃ t b0 b1 b2 b3, exec (.toBytes h) s = .next t ∧
    t.codecOut = .bytes [b0, b1, b2, b3] ∧
    ∀ i < 8, b0.getLsbD i = h.getLsbD (24 + i) ∧ b1.getLsbD i = h.getLsbD (16 + i) ∧
      b2.getLsbD i = h.getLsbD (8 + i) ∧ b3.getLsbD i = h.getLsbD i

/-- Rule R100: FROM_BYTES puts the first byte received at the top. -/
def Obligations.FromBytesIsBigEndian : Prop :=
  ∀ (b0 b1 b2 b3 : Byte) (s : State), ∃ t h, exec (.fromBytes b0 b1 b2 b3) s = .next t ∧ t.codecOut = .header h ∧
    ∀ i < 8, h.getLsbD (24 + i) = b0.getLsbD i ∧ h.getLsbD (16 + i) = b1.getLsbD i ∧
      h.getLsbD (8 + i) = b2.getLsbD i ∧ h.getLsbD i = b3.getLsbD i

/-- Rule R102: the round trip, in both directions, for every header and every four bytes. -/
def Obligations.BytesRoundTrip : Prop :=
  (∀ (h : Word) (s : State), ∃ t u b0 b1 b2 b3, exec (.toBytes h) s = .next t ∧
    t.codecOut = .bytes [b0, b1, b2, b3] ∧
    exec (.fromBytes b0 b1 b2 b3) t = .next u ∧ u.codecOut = .header h) ∧
  (∀ (b0 b1 b2 b3 : Byte) (s : State), ∃ t u h, exec (.fromBytes b0 b1 b2 b3) s = .next t ∧ t.codecOut = .header h ∧
    exec (.toBytes h) t = .next u ∧ u.codecOut = .bytes [b0, b1, b2, b3])

/-- Rule R101: HDR_OK is true exactly when bit `hdrb` is 0, whatever the other bits are. -/
def Obligations.HdrOkTestsHdrbAlone : Prop :=
  ∀ (h : Word) (s : State), ∃ t, exec (.hdrOk h) s = .next t ∧ t.codecOut = .bool (!h.getLsbD 30)

/-- Rules R104 to R111: each getter completes with the bits of its field. -/
def Obligations.GettersReadTheirField : Prop :=
  ∀ (h : Word) (s : State),
    (∃ t v, exec (.getParity h) s = .next t ∧ t.codecOut = .bit v ∧ v.getLsbD 0 = h.getLsbD 0) ∧
    (∃ t v, exec (.getLength h) s = .next t ∧ t.codecOut = .length v ∧ ∀ i < 7, v.getLsbD i = h.getLsbD (1 + i)) ∧
    (∃ t v, exec (.getAddress h) s = .next t ∧ t.codecOut = .address v ∧
      ∀ i < 16, v.getLsbD i = h.getLsbD (8 + i)) ∧
    (∃ t v, exec (.getMemmap h) s = .next t ∧ t.codecOut = .memmap v ∧ ∀ i < 4, v.getLsbD i = h.getLsbD (24 + i)) ∧
    (∃ t v, exec (.getAid h) s = .next t ∧ t.codecOut = .bit v ∧ v.getLsbD 0 = h.getLsbD 28) ∧
    (∃ t v, exec (.getWnr h) s = .next t ∧ t.codecOut = .bit v ∧ v.getLsbD 0 = h.getLsbD 29) ∧
    (∃ t v, exec (.getHdrb h) s = .next t ∧ t.codecOut = .bit v ∧ v.getLsbD 0 = h.getLsbD 30) ∧
    (∃ t v, exec (.getReserved h) s = .next t ∧ t.codecOut = .bit v ∧ v.getLsbD 0 = h.getLsbD 31)

/-- Rules R112 to R119: each setter completes with the header whose field holds the value reduced to the field's width
and whose other bits, `parity` included, are as before. -/
def Obligations.SettersReplaceTheirField : Prop :=
  ∀ (h : Word) (v : Nat) (s : State),
    (∃ t h', exec (.setParity h v) s = .next t ∧ t.codecOut = .header h' ∧
      ∀ i, h'.getLsbD i = if i = 0 then v.testBit 0 else h.getLsbD i) ∧
    (∃ t h', exec (.setLength h v) s = .next t ∧ t.codecOut = .header h' ∧
      ∀ i, h'.getLsbD i = if 1 ≤ i ∧ i < 8 then v.testBit (i - 1) else h.getLsbD i) ∧
    (∃ t h', exec (.setAddress h v) s = .next t ∧ t.codecOut = .header h' ∧
      ∀ i, h'.getLsbD i = if 8 ≤ i ∧ i < 24 then v.testBit (i - 8) else h.getLsbD i) ∧
    (∃ t h', exec (.setMemmap h v) s = .next t ∧ t.codecOut = .header h' ∧
      ∀ i, h'.getLsbD i = if 24 ≤ i ∧ i < 28 then v.testBit (i - 24) else h.getLsbD i) ∧
    (∃ t h', exec (.setAid h v) s = .next t ∧ t.codecOut = .header h' ∧
      ∀ i, h'.getLsbD i = if i = 28 then v.testBit 0 else h.getLsbD i) ∧
    (∃ t h', exec (.setWnr h v) s = .next t ∧ t.codecOut = .header h' ∧
      ∀ i, h'.getLsbD i = if i = 29 then v.testBit 0 else h.getLsbD i) ∧
    (∃ t h', exec (.setHdrb h v) s = .next t ∧ t.codecOut = .header h' ∧
      ∀ i, h'.getLsbD i = if i = 30 then v.testBit 0 else h.getLsbD i) ∧
    (∃ t h', exec (.setReserved h v) s = .next t ∧ t.codecOut = .header h' ∧
      ∀ i, h'.getLsbD i = if i = 31 then v.testBit 0 else h.getLsbD i)

/-- Rule R122: the get and set laws of the field access that every getter and setter uses, and ENCODE as their
composition (the five insertions commute by the fourth law, so their order does not matter). -/
def Obligations.FieldAccessLaws : Prop :=
  (∀ (f : Field) (h : Word) (v : Nat), getField f (insField f h v) = BitVec.ofNat (fieldWidth f) v) ∧
  (∀ (f g : Field) (h : Word) (v : Nat), f ≠ g → getField g (insField f h v) = getField g h) ∧
  (∀ (f : Field) (h : Word) (u v : Nat), insField f (insField f h v) u = insField f h u) ∧
  (∀ (f g : Field) (h : Word) (u v : Nat), f ≠ g →
    insField f (insField g h u) v = insField g (insField f h v) u) ∧
  (∀ (f : Field) (h : Word), insField f h (getField f h).toNat = h) ∧
  (∀ h : Word, h = placeField .parity (getField .parity h).toNat ||| placeField .length (getField .length h).toNat |||
    placeField .address (getField .address h).toNat ||| placeField .memmap (getField .memmap h).toNat |||
    placeField .aid (getField .aid h).toNat ||| placeField .wnr (getField .wnr h).toNat |||
    placeField .hdrb (getField .hdrb h).toNat ||| placeField .reserved (getField .reserved h).toNat) ∧
  (∀ (l a m : Nat) (d w : BitVec 1), encodeHeader l a m d w =
    calcParity (insField .wnr (insField .aid (insField .memmap (insField .address (insField .length 0 l) a) m)
      d.toNat) w.toNat))

/-- Rule R121: after a setter of a field other than `parity`, the parity that CALC_PARITY made holds exactly when an even
number of bits of that field changed, so the setter does not recompute it; a changed one-bit field always breaks it; and
CALC_PARITY applied again mends it. The rule's last sentence, that the engine builds its header only through ENCODE, is
`EncodeStepBuildsTheHeader`. -/
def Obligations.SettersDoNotMaintainParity : Prop :=
  ∀ (f : Field) (h : Word) (v : Nat) (s : State), f ≠ .parity → ∃ t h' u h'',
    exec (setterOf f (calcParity h) v) s = .next t ∧ t.codecOut = .header h' ∧
    (popcount h' % 2 = 1 ↔ popcount ((h' ^^^ calcParity h) &&& fieldMask f) % 2 = 0) ∧
    (f = .aid ∨ f = .wnr ∨ f = .hdrb ∨ f = .reserved → h' ≠ calcParity h → popcount h' % 2 = 0) ∧
    exec (.calcParity h') t = .next u ∧ u.codecOut = .header h'' ∧ popcount h'' % 2 = 1

/-- Rules R15 and R93: a codec operation completes in every state, its result depends on its operands alone, no state
element of CORE changes, and there is no I/O: nothing is put on the line and no answer of the transport is used. -/
def Obligations.CodecReadsAndWritesNoState : Prop :=
  ∀ i : Instr, isCodec i = true → ∃ out, ∀ s : State, ∃ t, exec i s = .next t ∧ t.codecOut = out ∧ s.sameCore t ∧
    t.sent = s.sent ∧ t.line = s.line ∧ t.draws = s.draws

/-- The whole frame of a codec call: only the caller's side changes, which is the model's (log entries 2 and 5). -/
def Obligations.CodecFrame : Prop :=
  ∀ (i : Instr) (s : State), isCodec i = true → ∃ out,
    exec i s = .next { s with calls := s.calls.tail, codecOut := out }

/-! ### The engine's operations (41_engine.md) -/

/-- Rule R124: CONSTRUCT completes in an engine that holds no transport: it owns it from then on, is idle, has no
result, and nothing was put on the bus. -/
def Obligations.ConstructTakesTheTransport : Prop :=
  ∀ s : State, s.owned = false → ∃ t, exec .construct s = .next t ∧ t.owned = true ∧ t.phase = .idle ∧
    t.done = false ∧ t.sent = s.sent

/-- The frame of CONSTRUCT (41_engine.md rule R124; that the call leaves the port is log entry 2). -/
def Obligations.ConstructFrame : Prop :=
  ∀ s t : State, exec .construct s = .next t →
    t = { s with owned := true, phase := .idle, done := false, calls := s.calls.tail }

/-- A second CONSTRUCT is refused by name: the choice of 93_implementation_defined.md U21. -/
def Obligations.SecondConstructIsRefused : Prop :=
  ∀ s : State, s.owned = true → exec .construct s = .refused .alreadyConstructed

/-- Rule R129: an owned, idle engine accepts every admitted command, latches its operands and, for a write, its N words;
the previous result is gone. -/
def Obligations.CommandIsAccepted : Prop :=
  ∀ (a : BitVec 16) (m : BitVec 4) (n : Nat) (s : State), s.owned = true → s.phase = .idle → 1 ≤ n → n ≤ 128 →
    (∃ t, exec (.execRead a m n) s = .next t ∧ t.op = 0 ∧ t.addr = a ∧ t.mm = m ∧ t.len.toNat = n - 1 ∧
      t.done = false ∧ t.phase = .encode ∧ t.callResult = .error .noValue) ∧
    (∀ ws : List Word, ws.length = n →
      ∃ t, exec (.execWrite a m n ws) s = .next t ∧ t.op = 1 ∧ t.addr = a ∧ t.mm = m ∧ t.len.toNat = n - 1 ∧
        t.wdata = ws ∧ t.done = false ∧ t.phase = .encode ∧ t.callResult = .error .noValue)

/-- The frame of step ACCEPT: what a command leaves as it was. Which words then exist (`wdata`, `rdata`) and that the
call leaves the port are the model's (log entries 2 and 10). -/
def Obligations.AcceptFrame : Prop :=
  ∀ (i : Instr) (c : Command) (s t : State), commandOf i = some c → s.owned = true → s.phase = .idle →
    exec i s = .next t →
    t.owned = s.owned ∧ t.hdr = s.hdr ∧ t.tb = s.tb ∧ t.bidx = s.bidx ∧ t.echo = s.echo ∧ t.status = s.status ∧
    t.resetReq = s.resetReq ∧ t.codecOut = s.codecOut ∧ t.line = s.line ∧ t.draws = s.draws ∧ t.sent = s.sent ∧
    t.rdata = [] ∧ t.wdata = c.payload ∧ t.hdrBuilt = false ∧ t.calls = s.calls.tail ∧ t.unwrap = isConvenience i

/-- While the engine is busy or holds no transport, exec of a command answers the same state: rule R147 says only that
ACCEPT is not enabled and the command waits at the port; that exec then answers the state it was given is the model's
choice (log entry 13). In a busy engine `step` goes on with its transaction. -/
def Obligations.CommandWaitsWhileNotReady : Prop :=
  ∀ (i : Instr) (c : Command) (s : State), commandOf i = some c → c.admitted = true →
    (s.owned = false ∨ s.phase ≠ .idle) → exec i s = .next s

/-- Rule R125: a count outside 1 to 128, or a payload of another size, is refused before any state change. -/
def Obligations.InadmissibleCommandIsRefused : Prop :=
  (∀ (a : BitVec 16) (m : BitVec 4) (n : Nat) (s : State), n < 1 ∨ 128 < n →
    exec (.execRead a m n) s = .refused .notAdmitted) ∧
  (∀ (a : BitVec 16) (m : BitVec 4) (n : Nat) (ws : List Word) (s : State), n < 1 ∨ 128 < n ∨ ws.length ≠ n →
    exec (.execWrite a m n ws) s = .refused .notAdmitted)

/-- Rule R88: each convenience read is the read of one register at its address in memory map 0, accepted by an owned,
idle engine. That its result is unwrapped is told by the model's field `unwrap` (log entry 5). -/
def Obligations.ConvenienceReadsAreReads : Prop :=
  ∀ s : State, s.owned = true → s.phase = .idle →
    (∃ t, exec (.execRead 0x0000 0 1) s = .next t ∧ t.phase = .encode ∧
      exec .getIdver s = .next { t with unwrap := true }) ∧
    (∃ t, exec (.execRead 0x0001 0 1) s = .next t ∧ t.phase = .encode ∧
      exec .getPhyid s = .next { t with unwrap := true }) ∧
    (∃ t, exec (.execRead 0x0002 0 1) s = .next t ∧ t.phase = .encode ∧
      exec .getCapability s = .next { t with unwrap := true })

/-! ### The sequencer's steps (41_engine.md) -/

/-- Rule R130: step ENCODE builds the header from the latches, with `aid = 1`, `hdrb = 0`, `reserved = 0` and odd
parity, and stays in phase ENCODE; nothing else changes. -/
def Obligations.EncodeStepBuildsTheHeader : Prop :=
  ∀ s : State, s.phase = .encode → s.hdrBuilt = false → ∃ h,
    step s = .next { s with hdr := h, hdrBuilt := true } ∧
    getField .length h = s.len ∧ getField .address h = s.addr ∧ getField .memmap h = s.mm ∧ getField .aid h = 1 ∧
    getField .wnr h = s.op ∧ getField .hdrb h = 0 ∧ getField .reserved h = 0 ∧ popcount h % 2 = 1

/-- Rule R78: the header step ENCODE builds is in the engine's class of its direction, with odd parity, and the headers
of the three convenience reads are the three words given. -/
def Obligations.EngineHeadersAreInTheirClass : Prop :=
  (∀ s t : State, s.phase = .encode → s.hdrBuilt = false → step s = .next t →
    (s.op = 0 → t.hdr &&& 0xF0000000#32 = 0x10000000#32) ∧ (s.op = 1 → t.hdr &&& 0xF0000000#32 = 0x30000000#32) ∧
    popcount t.hdr % 2 = 1) ∧
  (∀ s t u : State, s.owned = true → s.phase = .idle →
    (exec .getIdver s = .next t → step t = .next u → u.hdr = 0x10000000#32) ∧
    (exec .getPhyid s = .next t → step t = .next u → u.hdr = 0x10000101#32) ∧
    (exec .getCapability s = .next t → step t = .next u → u.hdr = 0x10000201#32))

/-- Rule R77: every header ENCODE can produce is in one of the two command classes, by its `wnr`; every 32-bit word is
in exactly one of the two echo classes, and the decoder of received headers follows them. -/
def Obligations.WireClassesCover : Prop :=
  (∀ (l a m : Nat) (d w : BitVec 1),
    (w = 0 → encodeHeader l a m d w &&& 0xE0000000#32 = 0x00000000#32) ∧
    (w = 1 → encodeHeader l a m d w &&& 0xE0000000#32 = 0x20000000#32)) ∧
  (∀ h : Word, (h &&& 0x40000000#32 = 0x00000000#32 ∨ h &&& 0x40000000#32 = 0x40000000#32) ∧
    (h &&& 0x40000000#32 = 0x00000000#32 ↔
      ∃ p l a m d w r, decode (.received h) = .ok (.echoAccept p l a m d w r)) ∧
    (h &&& 0x40000000#32 = 0x40000000#32 ↔
      ∃ p l a m d w r, decode (.received h) = .ok (.echoReject p l a m d w r)))

/-- Rule R131, with the content of the buffer of rule R41: a header run in phase ENCODE, once built, is framed with a zero
echo slot and, for a read, zero payload words, for a write whose N words exist, those words, most significant byte first;
every byte of the frame and none outside it then holds a value, and the exchange is entered with BIDX 0. Nothing else
changes. R131 frames HDR and fills by OP; that running a wire word is step FRAME, and frames the word itself with the fill
of its row, is the model's reading (log entry 7). -/
def Obligations.HeadersAreFramed : Prop :=
  (∀ (p : BitVec 1) (l : BitVec 7) (a : BitVec 16) (m : BitVec 4) (d : BitVec 1) (i : Instr) (h : Word) (s : State),
    (i = .hdrCtrlRead p l a m d ∧ h = packHeader p l a m d 0 0 0 ∨
      i = .hdrEngineRead p l a m ∧ h = packHeader p l a m 1 0 0 0) →
    s.phase = .encode → s.hdrBuilt = true →
    ∃ m', exec i s = .next { s with tb := m', phase := .exchange, bidx := 0 } ∧
      (∀ k < 4, Memory.read m' k = some (h.extractLsb' (24 - 8 * k) 8)) ∧
      (∀ k, 4 ≤ k → k < s.frameLen → Memory.read m' k = some 0) ∧
      (∀ k, s.frameLen ≤ k → Memory.read m' k = none)) ∧
  (∀ (p : BitVec 1) (l : BitVec 7) (a : BitVec 16) (m : BitVec 4) (d : BitVec 1) (i : Instr) (h : Word) (s : State),
    (i = .hdrCtrlWrite p l a m d ∧ h = packHeader p l a m d 1 0 0 ∨
      i = .hdrEngineWrite p l a m ∧ h = packHeader p l a m 1 1 0 0) →
    s.phase = .encode → s.hdrBuilt = true → s.wdata.length = s.count →
    ∃ m', exec i s = .next { s with tb := m', phase := .exchange, bidx := 0 } ∧
      (∀ k < 4, Memory.read m' k = some (h.extractLsb' (24 - 8 * k) 8)) ∧
      (∀ k, 4 ≤ k → k < 8 → Memory.read m' k = some 0) ∧
      (∀ k w, s.wdata[k]? = some w → ∀ j < 4,
        Memory.read m' (8 + 4 * k + j) = some (w.extractLsb' (24 - 8 * j) 8)) ∧
      (∀ k, s.frameLen ≤ k → Memory.read m' k = none))

/-- Where a wire word's step is not enabled the machine stops by name (the model's choice, log entry 7): a command
header outside phase ENCODE or before the header is built, an echo outside phase VALIDATE. -/
def Obligations.WireWordsStopOffSequence : Prop :=
  (∀ (p : BitVec 1) (l : BitVec 7) (a : BitVec 16) (m : BitVec 4) (d : BitVec 1) (s : State),
    (s.phase ≠ .encode ∨ s.hdrBuilt = false) →
    exec (.hdrCtrlRead p l a m d) s = .fault .offSequence ∧ exec (.hdrCtrlWrite p l a m d) s = .fault .offSequence ∧
    exec (.hdrEngineRead p l a m) s = .fault .offSequence ∧
    exec (.hdrEngineWrite p l a m) s = .fault .offSequence) ∧
  (∀ (p : BitVec 1) (l : BitVec 7) (a : BitVec 16) (m : BitVec 4) (d w r : BitVec 1) (s : State),
    s.phase ≠ .validate →
    exec (.echoAccept p l a m d w r) s = .fault .offSequence ∧
    exec (.echoReject p l a m d w r) s = .fault .offSequence)

/-- Rule R137: an accepted echo ends the transaction with `Ok`; a read delivers the N words of the payload slot, each
assembled most significant byte first; a write reads nothing from the buffer and delivers no word. That ECHO is latched is
rule R136, and that the buffer is discarded is rule R35. The model's choices: an echo word is run as steps VALIDATE and
EXTRACT (log entry 7) in one step (log entry 23), and the latches, HDR, BIDX and WDATA, whose lifetime is over, keep their
last values (log entry 18). -/
def Obligations.AcceptedEchoCompletes : Prop :=
  ∀ (p : BitVec 1) (l : BitVec 7) (a : BitVec 16) (m : BitVec 4) (d w r : BitVec 1) (s : State),
    s.phase = .validate →
    (s.op = 0 → s.bufferFilled →
      ∃ ws, exec (.echoAccept p l a m d w r) s = .next { s with
          echo := packHeader p l a m d w 0 r, rdata := ws, status := .ok, done := true, phase := .idle, tb := [] } ∧
        ws.length = s.count ∧
        ∀ k v, ws[k]? = some v → ∀ j < 4, Memory.read s.tb (8 + 4 * k + j) = some (v.extractLsb' (24 - 8 * j) 8)) ∧
    (s.op = 1 →
      exec (.echoAccept p l a m d w r) s = .next { s with
        echo := packHeader p l a m d w 0 r, status := .ok, done := true, phase := .idle, tb := [] })

/-- Rule R155: a rejected echo ends the transaction with `HeaderBadError` whatever the payload is and whatever its other
bits are; STATUS, DONE and PHASE are written, the buffer is dropped, and RDATA is not written. The model's choices are those
of `AcceptedEchoCompletes` (log entries 7 and 18). -/
def Obligations.RejectedEchoRaisesHeaderBad : Prop :=
  ∀ (p : BitVec 1) (l : BitVec 7) (a : BitVec 16) (m : BitVec 4) (d w r : BitVec 1) (s : State),
    s.phase = .validate →
    exec (.echoReject p l a m d w r) s = .next { s with
      echo := packHeader p l a m d w 1 r, status := .headerBadError, done := true, phase := .idle, tb := [] }

/-- Rules R136 and R137: in VALIDATE the echo is the big-endian word at bytes 4 to 7. If its bit `hdrb` is 1 the
transaction ends with `HeaderBadError` and RDATA as it was; otherwise step EXTRACT follows and ends it with `Ok`. No other
bit of the echo matters. R136 only lets VALIDATE and EXTRACT be one step; that they are is the model's choice (log entry
23). -/
def Obligations.EchoIsValidated : Prop :=
  ∀ (s : State) (b0 b1 b2 b3 : Byte), s.phase = .validate → s.bufferFilled →
    Memory.read s.tb 4 = some b0 → Memory.read s.tb 5 = some b1 → Memory.read s.tb 6 = some b2 →
    Memory.read s.tb 7 = some b3 →
    ∃ t, step s = .next t ∧ t.echo = b0 ++ b1 ++ b2 ++ b3 ∧ t.done = true ∧ t.phase = .idle ∧
      (b0.getLsbD 6 = true → t.status = .headerBadError ∧ t.rdata = s.rdata) ∧
      (b0.getLsbD 6 = false → t.status = .ok)

/-- Rule R134, for a byte and for a failure as the transport's next answer. The byte step, while `BIDX < L`: the byte at
BIDX is put on the line; a byte received overwrites it and BIDX advances; a failure in that byte time ends the transaction
with `IOError`. No answer yet is `SilentTransportBlocksTheEngine`. The final step, at `BIDX = L`: the transport may still
declare failure; otherwise PHASE becomes VALIDATE. -/
def Obligations.ExchangeGoesByteByByte : Prop :=
  ∀ (s : State) (rest : List LineEvent), s.phase = .exchange →
    (∀ x : Byte, s.bidx.toNat < s.frameLen → Memory.read s.tb s.bidx.toNat = some x →
      (∀ r, s.line = .go r :: rest → ∃ m', step s = .next { s with
          tb := m', bidx := s.bidx + 1, line := rest, sent := s.sent ++ [x] } ∧
        (s.bidx + 1).toNat = s.bidx.toNat + 1 ∧
        ∀ k, Memory.read m' k = if k = s.bidx.toNat then some r else Memory.read s.tb k) ∧
      (s.line = .fail :: rest → step s = .next { s with
          status := .ioError, done := true, phase := .idle, tb := [], line := rest, sent := s.sent ++ [x] })) ∧
    (s.bidx.toNat = s.frameLen →
      (∀ r, s.line = .go r :: rest → step s = .next { s with phase := .validate, line := rest }) ∧
      (s.line = .fail :: rest → step s = .next { s with
          status := .ioError, done := true, phase := .idle, tb := [], line := rest }))

/-- 00_scope.md rule R9: with no answer placed from outside, the exchange step does what the free draw says, whatever it
is (log entry 3): the same as if that one answer had been placed. -/
def Obligations.UnplacedAnswersAreDrawn : Prop :=
  ∀ (s : State) (x : Byte), s.phase = .exchange → s.line = [] →
    ((s.bidx.toNat < s.frameLen ∧ Memory.read s.tb s.bidx.toNat = some x) →
      ∃ t, step { s with line := [Config.lineDraw s.draws (s.sent ++ [x])] } = .next t ∧
        step s = .next { t with draws := s.draws + 1 }) ∧
    (s.bidx.toNat = s.frameLen →
      ∃ t, step { s with line := [Config.lineDraw s.draws s.sent] } = .next t ∧
        step s = .next { t with draws := s.draws + 1 })

/-- Rule R148: however often the transport has no answer, the engine stays in EXCHANGE with nothing changed but the
answers used up: a hang, not an error. One step without an answer, in a byte time or after the last byte, and any number of
them. That waiting is a step, and that the byte of a byte time without an answer is not yet recorded as sent, is the model's
choice (log entry 17). -/
def Obligations.SilentTransportBlocksTheEngine : Prop :=
  (∀ (s : State) (rest : List LineEvent), s.phase = .exchange →
    (s.bidx.toNat < s.frameLen ∧ (Memory.read s.tb s.bidx.toNat).isSome ∨ s.bidx.toNat = s.frameLen) →
    s.line = .wait :: rest → step s = .next { s with line := rest }) ∧
  (∀ (k : Nat) (s : State) (rest : List LineEvent), s.phase = .exchange → s.bidx.toNat ≤ s.frameLen →
    s.bufferFilled → s.line = List.replicate k .wait ++ rest →
    run k s = .next { s with line := rest })

/-- 41_engine.md rule R131, rule R136 and the fetch of a call: what the sequencer finds in its place is decoded and run.
A call in IDLE, the built header in ENCODE, the four echo bytes in VALIDATE. -/
def Obligations.StepRunsTheDecodedInstruction : Prop :=
  (∀ (s : State) (c : Call) (rest : List Call) (i : Instr), s.phase = .idle → s.resetReq = false →
    s.calls = c :: rest → decode (.call c) = .ok i → step s = exec i s) ∧
  (∀ (s : State) (i : Instr), s.phase = .encode → s.hdrBuilt = true → decode (.sent s.hdr) = .ok i →
    step s = exec i s) ∧
  (∀ (s : State) (i : Instr) (b0 b1 b2 b3 : Byte), s.phase = .validate →
    Memory.read s.tb 4 = some b0 → Memory.read s.tb 5 = some b1 → Memory.read s.tb 6 = some b2 →
    Memory.read s.tb 7 = some b3 → decode (.received (b0 ++ b1 ++ b2 ++ b3)) = .ok i → step s = exec i s)

/-- With no reset requested and nothing offered, a step of an idle engine answers the same state: rule R80 says only when
a command is accepted; that the step then answers the state it was given is the model's choice (log entry 2). -/
def Obligations.IdleEngineWaits : Prop :=
  ∀ s : State, s.phase = .idle → s.resetReq = false → s.calls = [] → step s = .next s

/-! ### Whole transactions (41_engine.md rules R128 and R138) -/

/-- Rule R138, with the results of rules R128 and R149: from an idle, constructed engine that is offered an admitted
command, for every outcome of the exchange (every received frame, or a failure after any number of bytes, each answer
after any number of waits), the run ends idle with a result, which is the one of `execute`; the bytes put on the line are
the frame of the command, as far as the exchange went (the byte of a failing byte time included, rule R134). -/
def Obligations.TransactionAgreesWithExecute : Prop :=
  ∀ (s : State) (i : Instr) (c : Command) (later : List Call) (answer : Answer) (waits : List Nat)
    (rest : List LineEvent), s.Offers i later → commandOf i = some c → c.admitted = true → answer.fits c.length →
    s.line = delayed waits answer.events ++ rest →
    ∃ n t, run n s = .next t ∧ t.phase = .idle ∧ t.owned = true ∧ t.done = true ∧ t.calls = later ∧
      t.line = rest ∧ t.sent = s.sent ++ c.transmits.take (answer.sentCount c.length) ∧
      t.callResult = .ok (callResultOf i c.op answer)

/-- Rules R133 and R134: the byte-level exchange, started at BIDX 0, ends in the state the atomic form gives, but for
BIDX and the transport's own record; each byte put on the line, that of a failing byte time included, is the one the
buffer held before the exchange. -/
def Obligations.ByteExchangeEqualsAtomicExchange : Prop :=
  ∀ (s : State) (answer : Answer) (waits : List Nat) (rest : List LineEvent), s.phase = .exchange → s.bidx = 0 →
    s.bufferFilled → answer.fits s.frameLen →
    s.line = delayed waits answer.events ++ rest →
    ∃ n j out, run n s = .next { s.exchangeAtomic answer with bidx := j, line := rest, sent := s.sent ++ out } ∧
      out.length = answer.sentCount s.frameLen ∧ ∀ k, k < out.length → out[k]? = Memory.read s.tb k

/-- Rule R152. Two transactions of the same direction and count, on any two engines in any two states and with any
addresses, memory maps and payloads, return the same result for the same outcome. And every command has one frame, such that
each transaction of it, on any engine in any state and for any outcome, puts that frame on the line, up to where the
exchange ended. -/
def Obligations.TransactionsAreDetermined : Prop :=
  (∀ (s s' : State) (i i' : Instr) (c c' : Command) (later later' : List Call) (answer : Answer)
    (waits waits' : List Nat) (rest rest' : List LineEvent),
    s.Offers i later → s'.Offers i' later' → commandOf i = some c → commandOf i' = some c' →
    c.admitted = true → c'.admitted = true → c.op = c'.op → c.registers = c'.registers →
    isConvenience i = isConvenience i' → answer.fits c.length →
    s.line = delayed waits answer.events ++ rest → s'.line = delayed waits' answer.events ++ rest' →
    ∃ n n' t t', run n s = .next t ∧ run n' s' = .next t' ∧ t.done = true ∧ t'.done = true ∧
      t.calls = later ∧ t'.calls = later' ∧ t.callResult = t'.callResult) ∧
  (∀ c : Command, c.admitted = true → ∃ frame : List Byte, frame.length = c.length ∧
    ∀ (s : State) (i : Instr) (later : List Call) (answer : Answer) (waits : List Nat) (rest : List LineEvent),
      s.Offers i later → commandOf i = some c → answer.fits c.length →
      s.line = delayed waits answer.events ++ rest →
      ∃ n t, run n s = .next t ∧ t.done = true ∧ t.calls = later ∧
        t.sent = s.sent ++ frame.take (answer.sentCount c.length))

/-! ### Encoding (30_encoding.md) -/

/-- Every well-formed instruction, with every operand its encoding admits, is decoded from its encoding. -/
def Obligations.EncodeThenDecode : Prop :=
  ∀ i : Instr, i.wellFormed = true → decode (encode i) = .ok i

/-- Every wire word that decodes is the encoding of what it decodes to: no bit of a header is dropped, sent or
received. -/
def Obligations.DecodeThenEncodeWireWords : Prop :=
  (∀ (h : Word) (i : Instr), decode (.sent h) = .ok i → encode i = .sent h) ∧
  (∀ (h : Word) (i : Instr), decode (.received h) = .ok i → encode i = .received h)

/-- Words written out from the tables of 30_encoding.md (rules R64, R78 and R79) and 95_test_vectors.md. -/
def Obligations.KnownWordsDecode : Prop :=
  decode (.call (.op [0x01, 0x10, 0x00, 0x01, 0x00])) = .ok (.calcParity 0x10000100#32) ∧
  decode (.call (.op [0x0A, 0x31, 0x00, 0x10, 0x02])) = .ok (.getAddress 0x31001002#32) ∧
  decode (.call (.op [0x12, 0x10, 0x00, 0x00, 0x00, 0x00, 0x01, 0x23, 0x45])) =
    .ok (.setAddress 0x10000000#32 0x12345) ∧
  decode (.call (.op [0x18])) = .ok .construct ∧
  decode (.call (.op [0x1B, 0x00, 0x10, 0x01, 0x01, 0xDE, 0xAD, 0xBE, 0xEF, 0x00, 0x00, 0x00, 0x01])) =
    .ok (.execWrite 0x0010 1 2 [0xDEADBEEF#32, 0x00000001#32]) ∧
  decode (.call (.convenience 0x10000201#32)) = .ok .getCapability ∧
  decode (.sent 0x31001002#32) = .ok (.hdrEngineWrite 0 1 0x0010 1) ∧
  decode (.sent 0x2112340A#32) = .ok (.hdrCtrlWrite 0 5 0x1234 1 0) ∧
  decode (.received 0x50000201#32) = .ok (.echoReject 1 0 0x0002 0 1 0 0) ∧
  decode (.received 0x80000000#32) = .ok (.echoAccept 0 0 0x0000 0 0 0 1)

/-- 30_encoding.md rule R84 and 93_implementation_defined.md U22: a selector that names no operation is refused by name,
and nothing else is. -/
def Obligations.ReservedSelectorsAreRefused : Prop :=
  ∀ (s : State) (b : Byte) (operands : List Byte) (rest : List Call), s.phase = .idle → s.resetReq = false →
    s.calls = .op (b :: operands) :: rest →
    (step s = .refused (.noSuchOperation (b.setWidth 5)) ↔
      (b.setWidth 5).toNat ∈ [0x05, 0x06, 0x07, 0x19, 0x1C, 0x1D, 0x1E, 0x1F])

/-! ### Reset (70_reset_and_hazards.md) -/

/-- Rule R178: a reset served in IDLE leaves OWNED 0, PHASE IDLE, DONE 0 and no other element with a value the caller
can read; nothing is put on the bus. That the reset is the very next step in IDLE, before any call at the port, is the
model's choice (log entry 14). -/
def Obligations.ResetInIdle : Prop :=
  ∀ s : State, s.phase = .idle → s.resetReq = true → ∃ t, step s = .next t ∧ t.owned = false ∧ t.phase = .idle ∧
    t.done = false ∧ t.sent = s.sent ∧ t.callResult = .error .noValue ∧ t.rspStatus = .error .noValue ∧
    (∀ k, t.rspRdata k = .error .noValue) ∧ (∀ a, Memory.read t.tb a = none)

/-- Rules R179 and R187: while a transaction is in flight a requested reset has no step: every step is what it would be
without the request. -/
def Obligations.NoResetWhileInFlight : Prop :=
  ∀ (s t : State) (b : Bool), s.phase ≠ .idle → step s = .next t →
    step { s with resetReq := b } = .next { t with resetReq := b }

/-- Rule R34: what the spec gives of the state after reset and after CONSTRUCT; the elements it leaves unspecified (status,
words, result) cannot be read by the caller, and no byte of the buffer holds a value. -/
def Obligations.ResetValues : Prop :=
  State.reset.owned = false ∧ State.reset.phase = .idle ∧ State.reset.done = false ∧
    State.reset.callResult = .error .noValue ∧ State.reset.rspStatus = .error .noValue ∧
    (∀ k, State.reset.rspRdata k = .error .noValue) ∧
    (∀ a, Memory.read State.reset.tb a = none) ∧
    ∃ t, exec .construct State.reset = .next t ∧ t.owned = true ∧ t.phase = .idle ∧ t.done = false ∧
      t.callResult = .error .noValue ∧ t.rspStatus = .error .noValue ∧ (∀ k, t.rspRdata k = .error .noValue) ∧
      ∀ a, Memory.read t.tb a = none

/-! ### The machine as a whole -/

/-- Every step keeps the invariant of the engine instance, from every state that meets it. -/
def Obligations.StepKeepsInv : Prop := ∀ s t : State, s.Inv → step s = .next t → t.Inv

/-- The state after reset meets the invariant. -/
def Obligations.ResetMeetsInv : Prop := State.reset.Inv

/-- Rules R91 and R173: from a state that meets the invariant no step faults, whatever the caller offers and whatever
the device sends. -/
def Obligations.NoStepFaults : Prop := ∀ (s : State) (f : Fault), s.Inv → step s ≠ .fault f

/-- A refusal is the caller's doing only: from a state that meets the invariant it comes in IDLE, from the call offered
(60_exceptions.md rules R160 and R173). -/
def Obligations.RefusalsComeFromTheCaller : Prop :=
  ∀ (s : State) (r : Refusal), s.Inv → step s = .refused r →
    s.phase = .idle ∧ s.calls ≠ [] ∧
      (r = .truncatedCall ∨ (∃ o, r = .noSuchOperation o) ∨ (∃ h, r = .noSuchConvenience h) ∨
        r = .alreadyConstructed)

/-- Rule R22: PHASE moves along the edges of the phase graph only. That no step stays in VALIDATE is the model's choice to
take VALIDATE and EXTRACT as one step (log entry 23). -/
def Obligations.PhaseMovesAlongItsEdges : Prop :=
  ∀ s t : State, step s = .next t → phaseEdge s.phase t.phase = true

/-- Rule R18: OWNED, once set, is never cleared; only CONSTRUCT sets it; and while it is 0 no transaction is accepted. A
served reset is the one exception, which rule R178 makes. -/
def Obligations.OwnershipIsNeverReleased : Prop :=
  ∀ s t : State, step s = .next t → ¬(s.phase = .idle ∧ s.resetReq = true) →
    (s.owned = true → t.owned = true) ∧
    (s.owned = false → t.owned = true →
      ∃ c rest, s.phase = .idle ∧ s.calls = c :: rest ∧ decode (.call c) = .ok .construct) ∧
    (s.owned = false → s.phase = .idle → t.phase = .idle)

/-- Rules R19, R24 and R61: while a transaction is in flight the command latches and the payload do not change, the
caller's port is not read, and the header changes only in the step that builds it. -/
def Obligations.CommandIsStableInFlight : Prop :=
  ∀ s t : State, s.phase ≠ .idle → step s = .next t →
    t.op = s.op ∧ t.addr = s.addr ∧ t.mm = s.mm ∧ t.len = s.len ∧ t.wdata = s.wdata ∧ t.calls = s.calls ∧
      t.unwrap = s.unwrap ∧ t.codecOut = s.codecOut ∧
      (t.hdr ≠ s.hdr → s.phase = .encode ∧ s.hdrBuilt = false)

/-- Rule R27: the result appears in the one step that ends the transaction; before it neither STATUS, RDATA nor DONE
changes. In IDLE, where no reset is served, STATUS never changes, and RDATA and DONE change only where a command is
accepted, which clears DONE, or where the engine is constructed. -/
def Obligations.ResultAppearsInOneStep : Prop :=
  (∀ s t : State, s.phase ≠ .idle → step s = .next t →
    (t.phase ≠ .idle ∧ t.status = s.status ∧ t.rdata = s.rdata ∧ t.done = s.done) ∨
    (t.phase = .idle ∧ t.done = true)) ∧
  (∀ s t : State, s.phase = .idle → s.resetReq = false → step s = .next t →
    t.status = s.status ∧ ((t.phase = .idle ∧ t.rdata = s.rdata ∧ t.done = s.done) ∨
      (t.done = false ∧ (t.phase = .encode ∨ (s.owned = false ∧ t.owned = true)))))

/-- Rules R135, R40 and R134: bytes are put on the line in phase EXCHANGE only, one a step, each the byte the buffer holds
at BIDX before it is overwritten; BIDX then advances, or the transport failed in that byte time. -/
def Obligations.BusIsUsedInExchangeOnly : Prop :=
  ∀ s t : State, step s = .next t → t.sent = s.sent ∨
    (s.phase = .exchange ∧ s.bidx.toNat < s.frameLen ∧
      (t.bidx = s.bidx + 1 ∨ t.phase = .idle ∧ t.status = .ioError) ∧
      ∃ x, Memory.read s.tb s.bidx.toNat = some x ∧ t.sent = s.sent ++ [x])

/-- Rules R158 and R162: a step that ends a transaction with an error does so with `IOError` out of EXCHANGE and with
`HeaderBadError` out of VALIDATE; it writes STATUS, DONE and PHASE, drops the buffer, leaves RDATA, the latches, the header
and the ownership, and the caller can read no word. -/
def Obligations.ErrorEndingDeliversNoData : Prop :=
  ∀ s t : State, s.phase ≠ .idle → step s = .next t → t.phase = .idle → t.status ≠ .ok →
    (s.phase = .exchange ∧ t.status = .ioError ∨ s.phase = .validate ∧ t.status = .headerBadError) ∧
    t.done = true ∧ t.rdata = s.rdata ∧ t.tb = [] ∧ t.op = s.op ∧ t.addr = s.addr ∧ t.mm = s.mm ∧ t.len = s.len ∧
      t.wdata = s.wdata ∧ t.hdr = s.hdr ∧ t.bidx = s.bidx ∧ t.owned = s.owned ∧ t.calls = s.calls ∧
      (∃ k, t.callResult = .ok (.err k)) ∧ ∀ k, t.rspRdata k = .error .noValue

/-- Rule R83: the codes of STATUS on the result port; the placeholder's code 3 is never shown (rule R156). -/
def Obligations.StatusPortShowsItsCode : Prop :=
  ∀ s : State, s.done = true →
    (s.status = .ok → s.rspStatus = .ok 0) ∧ (s.status = .ioError → s.rspStatus = .ok 1) ∧
    (s.status = .headerBadError → s.rspStatus = .ok 2) ∧ s.rspStatus ≠ .ok 3

/-- Rules R33 and R81: the result port answers exactly inside the validity of what it shows, and faults outside it. -/
def Obligations.ResultPortIsValidOnlyInsideItsLifetime : Prop :=
  ∀ s : State, s.Inv →
    ((∃ v, s.rspStatus = .ok v) ↔ s.done = true) ∧
    (∀ k, (∃ w, s.rspRdata k = .ok w) ↔ s.done = true ∧ s.status = .ok ∧ s.op = 0 ∧ k < s.count) ∧
    (∀ k, (∀ w, s.rspRdata k ≠ .ok w) → s.rspRdata k = .error .noValue)

/-- Rule R42 and the primitives of rule R13: a buffer access inside `[0, L)` reads back what was written, leaves every
other byte, and keeps the canonical form. One that reaches outside `[0, L)` the rules leave undefined; that it is the fault
`outsideBuffer` is the model's choice (log entry 16). -/
def Obligations.BufferAccessStaysInsideTheFrame : Prop :=
  ∀ (s : State) (a : Nat) (v : List Byte),
    (a + v.length ≤ s.frameLen → ∃ m', s.memWrite a v = .ok { s with tb := m' } ∧
      State.memRead { s with tb := m' } a v.length = .ok v ∧
      (∀ k, k < a ∨ a + v.length ≤ k → Memory.read m' k = Memory.read s.tb k) ∧
      (Memory.wf s.tb → Memory.wf m')) ∧
    (s.frameLen < a + v.length → s.memWrite a v = .error .outsideBuffer ∧
      s.memRead a v.length = .error .outsideBuffer)
end

