-- ==== Sys2Proof/Laws/Operands.lean ====
section
/-! SUPPORT. The laws of field access, of the parity bit and of the byte order: what each operand operation does to every
bit, said once. -/

namespace Sys2Proof.Machine

/-- A one-bit value is 0 or 1. -/
theorem bit_cases (v : BitVec 1) : v = 0 ∨ v = 1 := by revert v; decide

/-- ENGINE_AID as a numeral (00_scope.md rule R10). -/
@[simp] theorem engineAid_eq : Config.engineAid = 1 := rfl

/-! ### Fields -/

theorem getField_getLsbD (f : Field) (h : Word) (i : Nat) :
    (getField f h).getLsbD i = (decide (i < fieldWidth f) && h.getLsbD (fieldShift f + i)) := by
  simp [getField, BitVec.getLsbD_extractLsb']

/-- A field is known by its bits. -/
theorem getField_ext {f : Field} {h : Word} {v : BitVec (fieldWidth f)}
    (hb : ∀ i < fieldWidth f, h.getLsbD (fieldShift f + i) = v.getLsbD i) : getField f h = v :=
  BitVec.eq_of_getLsbD_eq fun i hi => by rw [getField_getLsbD, hb i hi, decide_eq_true hi, Bool.true_and]

theorem placeField_getLsbD (f : Field) (v i : Nat) :
    (placeField f v).getLsbD i =
      (decide (fieldShift f ≤ i ∧ i < fieldShift f + fieldWidth f) && v.testBit (i - fieldShift f)) := by
  have hfit : fieldShift f + fieldWidth f ≤ 32 := by cases f <;> decide
  simp only [placeField, BitVec.getLsbD_shiftLeft, BitVec.getLsbD_ofNat, Nat.testBit_mod_two_pow]
  by_cases h1 : fieldShift f ≤ i
  · by_cases h2 : i < fieldShift f + fieldWidth f
    · have h3 : i < 32 := by omega
      have h4 : i - fieldShift f < fieldWidth f := by omega
      have h5 : i - fieldShift f < 32 := by omega
      simp [h1, h2, h3, h4, h5]
    · have h4 : ¬ i - fieldShift f < fieldWidth f := by omega
      simp [h2, h4]
  · simp [h1, Nat.lt_of_not_le h1]

theorem fieldMask_getLsbD (f : Field) (i : Nat) :
    (fieldMask f).getLsbD i = decide (fieldShift f ≤ i ∧ i < fieldShift f + fieldWidth f) := by
  have hfit : fieldShift f + fieldWidth f ≤ 32 := by cases f <;> decide
  simp only [fieldMask, BitVec.getLsbD_shiftLeft, BitVec.getLsbD_ofNat, Nat.testBit_two_pow_sub_one]
  by_cases h1 : fieldShift f ≤ i
  · by_cases h2 : i < fieldShift f + fieldWidth f
    · have h3 : i < 32 := by omega
      have h4 : i - fieldShift f < fieldWidth f := by omega
      have h5 : i - fieldShift f < 32 := by omega
      simp [h1, h2, h3, h4, h5]
    · have h4 : ¬ i - fieldShift f < fieldWidth f := by omega
      simp [h2, h4]
  · simp [h1, Nat.lt_of_not_le h1]

theorem insField_getLsbD (f : Field) (h : Word) (v i : Nat) :
    (insField f h v).getLsbD i =
      if fieldShift f ≤ i ∧ i < fieldShift f + fieldWidth f then v.testBit (i - fieldShift f) else h.getLsbD i := by
  simp only [insField, BitVec.getLsbD_or, BitVec.getLsbD_and, BitVec.getLsbD_not, fieldMask_getLsbD,
    placeField_getLsbD]
  split <;> rename_i hc
  · simp [hc]
  · simp only [hc, decide_false, Bool.not_false, Bool.and_true, Bool.false_and, Bool.or_false]
    by_cases hi : i < 32
    · simp [hi]
    · simp [BitVec.getLsbD_of_ge _ _ (Nat.le_of_not_lt hi)]

/-- No two fields share a bit, and every bit is in a field (30_encoding.md rule R63). -/
theorem fields_disjoint (f g : Field) (h : f ≠ g) :
    fieldShift f + fieldWidth f ≤ fieldShift g ∨ fieldShift g + fieldWidth g ≤ fieldShift f := by
  cases f <;> cases g <;> first | exact absurd rfl h | decide

theorem packHeader_getLsbD (p : BitVec 1) (l : BitVec 7) (a : BitVec 16) (m : BitVec 4) (d w b r : BitVec 1)
    (i : Nat) :
    (packHeader p l a m d w b r).getLsbD i =
      if i < 1 then p.getLsbD i
      else if i < 8 then l.getLsbD (i - 1)
      else if i < 24 then a.getLsbD (i - 8)
      else if i < 28 then m.getLsbD (i - 24)
      else if i < 29 then d.getLsbD (i - 28)
      else if i < 30 then w.getLsbD (i - 29)
      else if i < 31 then b.getLsbD (i - 30)
      else r.getLsbD (i - 31) := by
  simp only [packHeader, BitVec.getLsbD_or, placeField_getLsbD, fieldShift, fieldWidth, BitVec.testBit_toNat]
  by_cases hi : i < 32
  · interval_cases i <;> simp
  · have hr : r.getLsbD (i - 31) = false := BitVec.getLsbD_of_ge _ _ (by omega)
    have h1 : ¬ i < 1 := by omega
    have h2 : ¬ i < 8 := by omega
    have h3 : ¬ i < 24 := by omega
    have h4 : ¬ i < 28 := by omega
    have h5 : ¬ i < 29 := by omega
    have h6 : ¬ i < 30 := by omega
    have h7 : ¬ i < 31 := by omega
    simp [hi, hr, h1, h2, h3, h4, h5, h6, h7]

/-- Unpacking a packed header gives each field back, and packing the fields of a header gives it back (40_codec.md rule
R94). -/
theorem packHeader_getField (h : Word) :
    packHeader (getField .parity h) (getField .length h) (getField .address h) (getField .memmap h)
      (getField .aid h) (getField .wnr h) (getField .hdrb h) (getField .reserved h) = h := by
  apply BitVec.eq_of_getLsbD_eq
  intro i hi
  simp only [packHeader_getLsbD, getField_getLsbD, fieldShift, fieldWidth]
  interval_cases i <;> simp

section
variable (p : BitVec 1) (l : BitVec 7) (a : BitVec 16) (m : BitVec 4) (d w b r : BitVec 1)

@[simp] theorem getField_parity_packHeader : getField .parity (packHeader p l a m d w b r) = p :=
  getField_ext fun i hi => by simp only [packHeader_getLsbD, fieldShift]; interval_cases i ; rfl
@[simp] theorem getField_length_packHeader : getField .length (packHeader p l a m d w b r) = l :=
  getField_ext fun i hi => by simp only [packHeader_getLsbD, fieldShift]; interval_cases i <;> rfl
@[simp] theorem getField_address_packHeader : getField .address (packHeader p l a m d w b r) = a :=
  getField_ext fun i hi => by simp only [packHeader_getLsbD, fieldShift]; interval_cases i <;> rfl
@[simp] theorem getField_memmap_packHeader : getField .memmap (packHeader p l a m d w b r) = m :=
  getField_ext fun i hi => by simp only [packHeader_getLsbD, fieldShift]; interval_cases i <;> rfl
@[simp] theorem getField_aid_packHeader : getField .aid (packHeader p l a m d w b r) = d :=
  getField_ext fun i hi => by simp only [packHeader_getLsbD, fieldShift]; interval_cases i ; rfl
@[simp] theorem getField_wnr_packHeader : getField .wnr (packHeader p l a m d w b r) = w :=
  getField_ext fun i hi => by simp only [packHeader_getLsbD, fieldShift]; interval_cases i ; rfl
@[simp] theorem getField_hdrb_packHeader : getField .hdrb (packHeader p l a m d w b r) = b :=
  getField_ext fun i hi => by simp only [packHeader_getLsbD, fieldShift]; interval_cases i ; rfl
@[simp] theorem getField_reserved_packHeader : getField .reserved (packHeader p l a m d w b r) = r :=
  getField_ext fun i hi => by simp only [packHeader_getLsbD, fieldShift]; interval_cases i ; rfl

end

/-! ### Parity -/

theorem popcountBelow_congr (n : Nat) (g h : Word) (hb : ∀ i < n, g.getLsbD i = h.getLsbD i) :
    popcountBelow n g = popcountBelow n h := by
  induction n with
  | zero => rfl
  | succ n ih => simp [popcountBelow, hb n (by omega), ih (fun i hi => hb i (by omega))]

/-- The mask of `parity` in the layout of 30_encoding.md rule R64: bit 0 is cleared. -/
theorem clearParity_eq (h : Word) : clearParity h = h &&& 0xFFFFFFFE#32 := rfl

theorem clearParity_getLsbD (h : Word) (i : Nat) :
    (clearParity h).getLsbD i = (decide (i ≠ 0) && h.getLsbD i) := by
  simp only [clearParity_eq, BitVec.getLsbD_and]
  by_cases hi : i < 32
  · interval_cases i <;> simp
  · simp [BitVec.getLsbD_of_ge _ _ (Nat.le_of_not_lt hi)]

/-- The bit CALC_PARITY places at `parity`. -/
theorem placeField_parity (v i : Nat) : (placeField .parity v).getLsbD i = (decide (i = 0) && v.testBit 0) := by
  rw [placeField_getLsbD]
  cases i <;> simp [fieldShift, fieldWidth]

/-- Bit 0 split off: the count of a word is the count of its other bits and that bit. -/
theorem popcountBelow_succ_clear (n : Nat) (h : Word) :
    popcountBelow (n + 1) h = popcountBelow (n + 1) (clearParity h) + (h.getLsbD 0).toNat := by
  induction n with
  | zero => simp only [popcountBelow, clearParity_getLsbD]; simp
  | succ n ih =>
    rw [popcountBelow, ih, popcountBelow.eq_def (n + 2)]
    have hbit : (clearParity h).getLsbD (n + 1) = h.getLsbD (n + 1) := by simp [clearParity_getLsbD]
    simp only [hbit]
    omega

theorem popcount_clearParity (h : Word) : popcount h = popcount (clearParity h) + (h.getLsbD 0).toNat :=
  popcountBelow_succ_clear 31 h

/-- CALC_PARITY changes no bit but `parity` (40_codec.md rule R98). -/
theorem calcParity_getLsbD (h : Word) (i : Nat) (hi : i ≠ 0) : (calcParity h).getLsbD i = h.getLsbD i := by
  simp [calcParity, clearParity_getLsbD, placeField_parity, hi]

/-- The bit CALC_PARITY writes: 1 iff the other 31 bits hold an even number of ones (rule R98). -/
theorem calcParity_bit (h : Word) : (calcParity h).getLsbD 0 = decide (popcount (clearParity h) % 2 = 0) := by
  simp only [calcParity, BitVec.getLsbD_or, clearParity_getLsbD, placeField_parity]
  split <;> rename_i hc <;> simp [hc]

theorem clearParity_calcParity (h : Word) : clearParity (calcParity h) = clearParity h := by
  apply BitVec.eq_of_getLsbD_eq
  intro i _
  rw [clearParity_getLsbD, clearParity_getLsbD]
  by_cases hi : i = 0
  · simp only [hi, ne_eq, not_true, decide_false, Bool.false_and]
  · rw [calcParity_getLsbD h i hi]

/-- The parity law (40_codec.md rule R103). -/
theorem oddParity_calcParity (h : Word) : oddParity (calcParity h) = true := by
  have hp := popcount_clearParity (calcParity h)
  rw [clearParity_calcParity, calcParity_bit] at hp
  simp only [oddParity, beq_iff_eq]
  by_cases he : popcount (clearParity h) % 2 = 0
  · simp only [he, decide_true, Bool.toNat_true] at hp; omega
  · simp only [he, decide_false, Bool.toNat_false] at hp; omega

/-- Only the other 31 bits matter to CALC_PARITY (rule R98). -/
theorem calcParity_congr (g h : Word) (hc : clearParity g = clearParity h) : calcParity g = calcParity h := by
  simp [calcParity, hc]

/-- A word of odd parity is its own CALC_PARITY. -/
theorem calcParity_of_odd (h : Word) (ho : oddParity h = true) : calcParity h = h := by
  apply BitVec.eq_of_getLsbD_eq
  intro i _
  by_cases hi : i = 0
  · subst hi
    rw [calcParity_bit]
    have hp := popcount_clearParity h
    simp only [oddParity, beq_iff_eq] at ho
    cases hb : h.getLsbD 0 <;> simp only [hb, Bool.toNat_true, Bool.toNat_false] at hp <;> simp <;> omega
  · exact calcParity_getLsbD h i hi

/-! ### The header ENCODE builds -/

/-- Every bit of ENCODE's header but `parity` (40_codec.md rule R97). -/
theorem encodeHeader_getLsbD (l a m : Nat) (d w : BitVec 1) (i : Nat) (hi : i ≠ 0) :
    (encodeHeader l a m d w).getLsbD i =
      if i < 8 then l.testBit (i - 1)
      else if i < 24 then a.testBit (i - 8)
      else if i < 28 then m.testBit (i - 24)
      else if i < 29 then d.getLsbD (i - 28)
      else if i < 30 then w.getLsbD (i - 29)
      else false := by
  rw [encodeHeader, calcParity_getLsbD _ i hi]
  simp only [BitVec.getLsbD_or, placeField_getLsbD, fieldShift, fieldWidth, BitVec.testBit_toNat]
  by_cases h32 : i < 32
  · interval_cases i <;> simp_all
  · have h2 : ¬ i < 8 := by omega
    have h3 : ¬ i < 24 := by omega
    have h4 : ¬ i < 28 := by omega
    have h5 : ¬ i < 29 := by omega
    have h6 : ¬ i < 30 := by omega
    simp [h2, h3, h4, h5, h6]

theorem oddParity_encodeHeader (l a m : Nat) (d w : BitVec 1) : oddParity (encodeHeader l a m d w) = true :=
  oddParity_calcParity _

section
variable (l a m : Nat) (d w : BitVec 1)

theorem getField_length_encodeHeader : getField .length (encodeHeader l a m d w) = BitVec.ofNat 7 l :=
  getField_ext fun i hi => by
    rw [encodeHeader_getLsbD _ _ _ _ _ _ (by simp [fieldShift])]
    simp only [fieldShift, BitVec.getLsbD_ofNat, fieldWidth] at hi ⊢; interval_cases i <;> simp
theorem getField_address_encodeHeader : getField .address (encodeHeader l a m d w) = BitVec.ofNat 16 a :=
  getField_ext fun i hi => by
    rw [encodeHeader_getLsbD _ _ _ _ _ _ (by simp [fieldShift])]
    simp only [fieldShift, BitVec.getLsbD_ofNat, fieldWidth] at hi ⊢; interval_cases i <;> simp
theorem getField_memmap_encodeHeader : getField .memmap (encodeHeader l a m d w) = BitVec.ofNat 4 m :=
  getField_ext fun i hi => by
    rw [encodeHeader_getLsbD _ _ _ _ _ _ (by simp [fieldShift])]
    simp only [fieldShift, BitVec.getLsbD_ofNat, fieldWidth] at hi ⊢; interval_cases i <;> simp
theorem getField_aid_encodeHeader : getField .aid (encodeHeader l a m d w) = d :=
  getField_ext fun i hi => by
    rw [encodeHeader_getLsbD _ _ _ _ _ _ (by simp [fieldShift])]
    simp only [fieldShift]; interval_cases i ; simp
theorem getField_wnr_encodeHeader : getField .wnr (encodeHeader l a m d w) = w :=
  getField_ext fun i hi => by
    rw [encodeHeader_getLsbD _ _ _ _ _ _ (by simp [fieldShift])]
    simp only [fieldShift]; interval_cases i ; simp
theorem getField_hdrb_encodeHeader : getField .hdrb (encodeHeader l a m d w) = 0 :=
  getField_ext fun i hi => by
    rw [encodeHeader_getLsbD _ _ _ _ _ _ (by simp [fieldShift])]
    simp only [fieldShift]; interval_cases i ; simp
theorem getField_reserved_encodeHeader : getField .reserved (encodeHeader l a m d w) = 0 :=
  getField_ext fun i hi => by
    rw [encodeHeader_getLsbD _ _ _ _ _ _ (by simp [fieldShift])]
    simp only [fieldShift]; interval_cases i ; simp

end

/-! ### Masks of the opcode table -/

/-- A test `(h & mask) == match` on the top four bits is a test of those bits (30_encoding.md rules R64, R77). -/
theorem top_bits_eq (h mask k : Word) (hlow : ∀ i < 28, mask.getLsbD i = false ∧ k.getLsbD i = false) :
    h &&& mask = k ↔
      (h.getLsbD 28 && mask.getLsbD 28) = k.getLsbD 28 ∧ (h.getLsbD 29 && mask.getLsbD 29) = k.getLsbD 29 ∧
      (h.getLsbD 30 && mask.getLsbD 30) = k.getLsbD 30 ∧ (h.getLsbD 31 && mask.getLsbD 31) = k.getLsbD 31 := by
  constructor
  · rintro rfl
    simp only [BitVec.getLsbD_and, and_self]
  · rintro ⟨h28, h29, h30, h31⟩
    refine BitVec.eq_of_getLsbD_eq fun i hi => ?_
    rw [BitVec.getLsbD_and]
    by_cases hl : i < 28
    · rw [(hlow i hl).1, (hlow i hl).2, Bool.and_false]
    · obtain rfl | rfl | rfl | rfl : i = 28 ∨ i = 29 ∨ i = 30 ∨ i = 31 := by omega
      all_goals assumption

/-! ### Byte order -/

@[simp] theorem be32_length (w : Word) : (be32 w).length = 4 := rfl

/-- `unbe32(be32(w)) = w` (40_codec.md rule R102). -/
theorem unbe32_be32 (w : Word) :
    unbe32 (w.extractLsb' 24 8) (w.extractLsb' 16 8) (w.extractLsb' 8 8) (w.extractLsb' 0 8) = w := by
  apply BitVec.eq_of_getLsbD_eq
  intro i hi
  simp only [unbe32, BitVec.getLsbD_append, BitVec.getLsbD_extractLsb']
  interval_cases i <;> simp

/-- `be32(unbe32(b)) = b` (rule R102). -/
theorem be32_unbe32 (b0 b1 b2 b3 : Byte) : be32 (unbe32 b0 b1 b2 b3) = [b0, b1, b2, b3] := by
  simp only [be32, unbe32, List.cons.injEq, and_true]
  refine ⟨?_, ?_, ?_, ?_⟩ <;>
  · apply BitVec.eq_of_getLsbD_eq
    intro i hi
    simp only [BitVec.getLsbD_append, BitVec.getLsbD_extractLsb']
    interval_cases i <;> simp

theorem wordsOf_be32_append (w : Word) (bs : List Byte) : wordsOf (be32 w ++ bs) = w :: wordsOf bs := by
  simp [be32, wordsOf, unbe32_be32]

theorem wordsOf_flatMap_be32 (ws : List Word) : wordsOf (ws.flatMap be32) = ws := by
  induction ws with
  | nil => rfl
  | cons w ws ih => rw [List.flatMap_cons, wordsOf_be32_append, ih]

theorem flatMap_be32_length (ws : List Word) : (ws.flatMap be32).length = 4 * ws.length := by
  induction ws with
  | nil => rfl
  | cons w ws ih => simp [List.flatMap_cons, ih]; omega

theorem wordsOf_length (n : Nat) (bs : List Byte) (h : bs.length = 4 * n) : (wordsOf bs).length = n := by
  induction n generalizing bs with
  | zero => simp [List.length_eq_zero_iff.mp h, wordsOf]
  | succ n ih =>
    match bs, h with
    | b0 :: b1 :: b2 :: b3 :: rest, h =>
      simp only [wordsOf, List.length_cons, ih rest (by simp only [List.length_cons] at h; omega)]
    | [], h => simp at h
    | [_], h => simp at h; omega
    | [_, _], h => simp at h; omega
    | [_, _, _], h => simp at h; omega

/-- Byte `j` of a word, most significant first. -/
theorem be32_getElem? (w : Word) (j : Nat) (hj : j < 4) : (be32 w)[j]? = some (w.extractLsb' (24 - 8 * j) 8) := by
  interval_cases j <;> rfl

/-- Byte `j` of word `k` of a payload. -/
theorem flatMap_be32_getElem? (ws : List Word) (k j : Nat) (hj : j < 4) :
    (ws.flatMap be32)[4 * k + j]? = (ws[k]?).map (fun w => w.extractLsb' (24 - 8 * j) 8) := by
  induction ws generalizing k with
  | nil => simp
  | cons w ws ih =>
    rw [List.flatMap_cons]
    cases k with
    | zero =>
      rw [List.getElem?_append_left (by rw [be32_length]; omega)]
      simp [be32_getElem? w j hj]
    | succ k =>
      rw [List.getElem?_append_right (by rw [be32_length]; omega), be32_length,
        show 4 * (k + 1) + j - 4 = 4 * k + j by omega, ih, List.getElem?_cons_succ]

/-- Byte `j` of word `k` assembled from a byte sequence is byte `4k + j` of the sequence. -/
theorem wordsOf_getElem? (bs : List Byte) (k j : Nat) (v : Word) (hj : j < 4) (h : (wordsOf bs)[k]? = some v) :
    bs[4 * k + j]? = some (v.extractLsb' (24 - 8 * j) 8) := by
  induction k generalizing bs with
  | zero =>
    match bs, h with
    | b0 :: b1 :: b2 :: b3 :: rest, h =>
      simp only [wordsOf, List.getElem?_cons_zero, Option.some.injEq] at h
      subst h
      rw [← be32_getElem? _ j hj, be32_unbe32]
      interval_cases j <;> rfl
    | [], h => simp [wordsOf] at h
    | [_], h => simp [wordsOf] at h
    | [_, _], h => simp [wordsOf] at h
    | [_, _, _], h => simp [wordsOf] at h
  | succ k ih =>
    match bs, h with
    | b0 :: b1 :: b2 :: b3 :: rest, h =>
      simp only [wordsOf, List.getElem?_cons_succ] at h
      rw [show 4 * (k + 1) + j = (4 * k + j) + 4 by omega]
      simpa using ih rest h
    | [], h => simp [wordsOf] at h
    | [_], h => simp [wordsOf] at h
    | [_, _], h => simp [wordsOf] at h
    | [_, _, _], h => simp [wordsOf] at h

/-! ### Counts -/

theorem count_of_len (n : Nat) (h1 : 1 ≤ n) (h2 : n ≤ 128) : countOfLen (lenOfCount n) = n := by
  simp only [countOfLen, lenOfCount, BitVec.toNat_ofNat]; omega

theorem lenOfCount_toNat (n : Nat) (h2 : n ≤ 128) : (lenOfCount n).toNat = n - 1 := by
  simp only [lenOfCount, BitVec.toNat_ofNat]; omega

theorem frameLength_eq (len : BitVec 7) : frameLength len = 8 + 4 * (len.toNat + 1) := rfl

/-- L fits BIDX: at most 520 (00_scope.md rule R10, TB_MAX). -/
theorem frameLength_le (len : BitVec 7) : frameLength len ≤ 520 := by
  have := len.isLt; simp only [frameLength_eq]; omega

theorem admitsRead_iff (n : Nat) : admitsRead n = true ↔ 1 ≤ n ∧ n ≤ 128 := by
  exact decide_eq_true_iff

theorem admitsWrite_iff (n : Nat) (ws : List Word) :
    admitsWrite n ws = true ↔ (1 ≤ n ∧ n ≤ 128) ∧ ws.length = n := by
  simp [admitsWrite, admitsRead_iff]

end Sys2Proof.Machine
end

