-- ==== Sys2Proof/Laws/Decode.lean ====
section
/-! SUPPORT. What decoding can give, in each place an instruction stands: a call is never a wire word, and a wire word
decodes to its own fields. -/

namespace Sys2Proof

open Machine

/-- The wire words of the table (30_encoding.md rules R77 and R78). -/
def Instr.isWire : Instr → Bool
  | .hdrCtrlRead _ _ _ _ _ => true
  | .hdrCtrlWrite _ _ _ _ _ => true
  | .hdrEngineRead _ _ _ _ => true
  | .hdrEngineWrite _ _ _ _ => true
  | .echoAccept _ _ _ _ _ _ _ => true
  | .echoReject _ _ _ _ _ _ _ => true
  | _ => false

theorem decodeHeaderOperand_ok {k : Word → Instr} {bs : List Byte} {i : Instr}
    (h : decodeHeaderOperand k bs = .ok i) : ∃ w, i = k w := by
  unfold decodeHeaderOperand at h
  split at h
  · cases h; exact ⟨_, rfl⟩
  · cases h

theorem decodeSetterOperands_ok {k : Word → Nat → Instr} {bs : List Byte} {i : Instr}
    (h : decodeSetterOperands k bs = .ok i) : ∃ w v, i = k w v := by
  unfold decodeSetterOperands at h
  split at h
  · split at h
    · cases h; exact ⟨_, _, rfl⟩
    · cases h
  · cases h

theorem decodeEncodeOperands_ok {bs : List Byte} {i : Instr} (h : decodeEncodeOperands bs = .ok i) :
    ∃ l a m d w, i = .encode l a m d w := by
  unfold decodeEncodeOperands at h
  split at h
  · split at h
    · split at h
      · cases h; exact ⟨_, _, _, _, _, rfl⟩
      · cases h
    · cases h
  · cases h

theorem decodeFourBytes_ok {bs : List Byte} {i : Instr} (h : decodeFourBytes bs = .ok i) :
    ∃ b0 b1 b2 b3, i = .fromBytes b0 b1 b2 b3 := by
  unfold decodeFourBytes at h
  split at h
  · cases h; exact ⟨_, _, _, _, rfl⟩
  · cases h

theorem takeWords_length {n : Nat} {bs : List Byte} {ws : List Word} (h : takeWords n bs = some ws) :
    ws.length = n := by
  induction n generalizing bs ws with
  | zero => cases h; rfl
  | succ n ih =>
    rw [takeWords] at h
    split at h
    · obtain ⟨vs, hv, rfl⟩ := Option.map_eq_some_iff.mp h
      simp [ih hv]
    · cases h

theorem countOfLen_range (l : BitVec 7) : 1 ≤ countOfLen l ∧ countOfLen l ≤ 128 := by
  have := l.isLt; unfold countOfLen; omega

theorem decodeReadOperands_ok {bs : List Byte} {i : Instr} (h : decodeReadOperands bs = .ok i) :
    ∃ a m n, i = .execRead a m n ∧ admitsRead n = true := by
  unfold decodeReadOperands at h
  split at h
  · cases h; exact ⟨_, _, _, rfl, (admitsRead_iff _).mpr (countOfLen_range _)⟩
  · cases h

theorem decodeWriteOperands_ok {bs : List Byte} {i : Instr} (h : decodeWriteOperands bs = .ok i) :
    ∃ a m n ws, i = .execWrite a m n ws ∧ admitsWrite n ws = true := by
  unfold decodeWriteOperands at h
  split at h
  · split at h
    · rename_i hw
      cases h
      exact ⟨_, _, _, _, rfl, (admitsWrite_iff _ _).mpr ⟨countOfLen_range _, takeWords_length hw⟩⟩
    · cases h
  · cases h

/-- A call decodes to no wire word, and a command it decodes to is admitted: the command port cannot express another
(30_encoding.md rule R80, 20_memory.md rule R42). -/
theorem decode_call_ok {c : Call} {i : Instr} (h : decode (.call c) = .ok i) :
    i.isWire = false ∧ (∀ a m n, i = .execRead a m n → admitsRead n = true) ∧
      (∀ a m n ws, i = .execWrite a m n ws → admitsWrite n ws = true) := by
  cases c with
  | convenience w =>
    simp only [decode, decodeConvenience] at h
    split at h
    · cases h; simp [Instr.isWire]
    · split at h
      · cases h; simp [Instr.isWire]
      · split at h
        · cases h; simp [Instr.isWire]
        · cases h
  | op bs =>
    cases bs with
    | nil => cases h
    | cons b rest =>
      simp only [decode, decodeOp, decodeSelector] at h
      split at h
      all_goals first
        | (obtain ⟨_, rfl⟩ := decodeHeaderOperand_ok h; simp [Instr.isWire])
        | (obtain ⟨_, _, rfl⟩ := decodeSetterOperands_ok h; simp [Instr.isWire])
        | (obtain ⟨_, _, _, _, _, rfl⟩ := decodeEncodeOperands_ok h; simp [Instr.isWire])
        | (obtain ⟨_, _, _, _, rfl⟩ := decodeFourBytes_ok h; simp [Instr.isWire])
        | (obtain ⟨_, _, _, rfl, ha⟩ := decodeReadOperands_ok h
           exact ⟨rfl, fun _ _ _ he => (Instr.execRead.inj he).2.2 ▸ ha, nofun⟩)
        | (obtain ⟨_, _, _, _, rfl, ha⟩ := decodeWriteOperands_ok h
           exact ⟨rfl, nofun, fun _ _ _ _ he =>
             (Instr.execWrite.inj he).2.2.1 ▸ (Instr.execWrite.inj he).2.2.2 ▸ ha⟩)
        | (cases h; simp [Instr.isWire])
        | cases h

/-- The mask and match of each 32-bit row of the table, in the fields it tests (30_encoding.md rules R64 and R77). -/
theorem topBits (h : Word) :
    (h &&& 0xF0000000#32 = 0x10000000#32 ↔
      getField .aid h = 1 ∧ getField .wnr h = 0 ∧ getField .hdrb h = 0 ∧ getField .reserved h = 0) ∧
    (h &&& 0xF0000000#32 = 0x30000000#32 ↔
      getField .aid h = 1 ∧ getField .wnr h = 1 ∧ getField .hdrb h = 0 ∧ getField .reserved h = 0) ∧
    (h &&& 0xE0000000#32 = 0x00000000#32 ↔
      getField .wnr h = 0 ∧ getField .hdrb h = 0 ∧ getField .reserved h = 0) ∧
    (h &&& 0xE0000000#32 = 0x20000000#32 ↔
      getField .wnr h = 1 ∧ getField .hdrb h = 0 ∧ getField .reserved h = 0) ∧
    (h &&& 0x40000000#32 = 0x00000000#32 ↔ getField .hdrb h = 0) := by
  have bit (f : Field) (hw : fieldWidth f = 1) (v : BitVec (fieldWidth f)) :
      getField f h = v ↔ h.getLsbD (fieldShift f) = v.getLsbD 0 := by
    constructor
    · rintro rfl; rw [getField_getLsbD, hw]; rfl
    · intro hv
      refine getField_ext fun i hi => ?_
      obtain rfl : i = 0 := by omega
      simpa using hv
  refine ⟨?_, ?_, ?_, ?_, ?_⟩ <;> rw [top_bits_eq _ _ _ (by decide)] <;>
    simp [bit .aid rfl, bit .wnr rfl, bit .hdrb rfl, bit .reserved rfl, fieldShift]

/-- What an outbound header decodes to: its class, with its own fields (30_encoding.md rules R77 and R78). -/
theorem decodeSent_ok {h : Word} {i : Instr} (hd : decodeSent h = .ok i) :
    (∃ p l a m, i = .hdrEngineRead p l a m ∧ packHeader p l a m 1 0 0 0 = h) ∨
    (∃ p l a m, i = .hdrEngineWrite p l a m ∧ packHeader p l a m 1 1 0 0 = h) ∨
    (∃ p l a m, i = .hdrCtrlRead p l a m 0 ∧ packHeader p l a m 0 0 0 0 = h) ∨
    (∃ p l a m, i = .hdrCtrlWrite p l a m 0 ∧ packHeader p l a m 0 1 0 0 = h) := by
  have hp := packHeader_getField h
  unfold decodeSent at hd
  simp only at hd
  split at hd
  · rename_i hc
    rw [hc.1, hc.2] at hp
    split at hd
    · rename_i ha
      rw [ha] at hp
      split at hd <;> rename_i hw <;> cases hd
      · rw [hw] at hp; exact .inl ⟨_, _, _, _, rfl, hp⟩
      · rw [(bit_cases _).resolve_left hw] at hp; exact .inr (.inl ⟨_, _, _, _, rfl, hp⟩)
    · rename_i ha
      have ha0 : getField .aid h = 0 := (bit_cases _).resolve_right ha
      rw [ha0] at hp hd
      split at hd <;> rename_i hw <;> cases hd
      · rw [hw] at hp; exact .inr (.inr (.inl ⟨_, _, _, _, rfl, hp⟩))
      · rw [(bit_cases _).resolve_left hw] at hp; exact .inr (.inr (.inr ⟨_, _, _, _, rfl, hp⟩))
  · cases hd

/-- What a received header decodes to: accepted or rejected on `hdrb` alone (30_encoding.md rule R85). -/
theorem decodeReceived_cases (h : Word) :
    (getField .hdrb h = 0 ∧ ∃ p l a m d w r, decodeReceived h = .echoAccept p l a m d w r ∧
      packHeader p l a m d w 0 r = h) ∨
    (getField .hdrb h = 1 ∧ ∃ p l a m d w r, decodeReceived h = .echoReject p l a m d w r ∧
      packHeader p l a m d w 1 r = h) := by
  have hp := packHeader_getField h
  unfold decodeReceived
  by_cases hc : getField .hdrb h = 0
  · simp only [if_pos hc]
    rw [hc] at hp
    exact .inl ⟨hc, _, _, _, _, _, _, _, rfl, hp⟩
  · simp only [if_neg hc]
    have h1 : getField .hdrb h = 1 := (bit_cases _).resolve_left hc
    rw [h1] at hp
    exact .inr ⟨h1, _, _, _, _, _, _, _, rfl, hp⟩

/-- An outbound header of given fields decodes to its class. -/
theorem decodeSent_packHeader (p : BitVec 1) (l : BitVec 7) (a : BitVec 16) (m : BitVec 4) (d w : BitVec 1) :
    decodeSent (packHeader p l a m d w 0 0) = .ok
      (if d = 1 then (if w = 0 then .hdrEngineRead p l a m else .hdrEngineWrite p l a m)
        else (if w = 0 then .hdrCtrlRead p l a m d else .hdrCtrlWrite p l a m d)) := by
  unfold decodeSent
  simp only [getField_aid_packHeader, getField_wnr_packHeader, getField_hdrb_packHeader, getField_reserved_packHeader,
    getField_parity_packHeader, getField_length_packHeader, getField_address_packHeader, getField_memmap_packHeader,
    engineAid_eq, and_self, if_true]
  rcases bit_cases d with rfl | rfl <;> rcases bit_cases w with rfl | rfl <;> rfl

/-- A received header of given fields decodes to its class. -/
theorem decodeReceived_packHeader (p : BitVec 1) (l : BitVec 7) (a : BitVec 16) (m : BitVec 4)
    (d w b r : BitVec 1) :
    decodeReceived (packHeader p l a m d w b r) =
      if b = 0 then .echoAccept p l a m d w r else .echoReject p l a m d w r := by
  unfold decodeReceived
  simp only [getField_hdrb_packHeader, getField_aid_packHeader, getField_parity_packHeader, getField_length_packHeader,
    getField_address_packHeader, getField_memmap_packHeader, getField_wnr_packHeader,
    getField_reserved_packHeader]

/-! ### Operand bytes -/

theorem takeWord_be32 (w : Word) (rest : List Byte) : takeWord (be32 w ++ rest) = some (w, rest) := by
  simp [be32, takeWord, unbe32_be32]

theorem takeWord_be32_nil (w : Word) : takeWord (be32 w) = some (w, []) := by
  simpa using takeWord_be32 w []

theorem takeWords_flatMap_be32 (ws : List Word) (rest : List Byte) :
    takeWords ws.length (ws.flatMap be32 ++ rest) = some ws := by
  induction ws with
  | nil => rfl
  | cons w ws ih => simp [takeWords, List.flatMap_cons, List.append_assoc, takeWord_be32, ih]

theorem toNat_ofNat_of_natFits (v : Nat) (h : Instr.natFits v = true) : (BitVec.ofNat 32 v).toNat = v := by
  simp [Instr.natFits] at h; simp; omega

theorem append_extract_address (a : BitVec 16) : a.extractLsb' 8 8 ++ a.extractLsb' 0 8 = a := by
  apply BitVec.eq_of_getLsbD_eq
  intro i hi
  simp only [BitVec.getLsbD_append, BitVec.getLsbD_extractLsb']
  interval_cases i <;> simp

end Sys2Proof
end

