-- ==== Sys2Proof/Laws/Memory.lean ====
section
/-! SUPPORT. The laws of the transaction buffer: what is read after a write, and that every memory operation keeps the
canonical form. -/

namespace Sys2Proof.Machine

theorem Memory.read_write_same (m : Memory) (a : Nat) (b : Byte) : Memory.read (Memory.write m a b) a = some b := by
  induction m with
  | nil => simp [Memory.write, Memory.read]
  | cons c m ih =>
    simp only [Memory.write]
    split
    · simp [Memory.read]
    · split
      · simp [Memory.read]
      · rename_i hne
        simp only [Memory.read, ih]
        rw [if_neg (fun h => hne h.symm)]

theorem Memory.read_write_other (m : Memory) (a k : Nat) (b : Byte) (h : k ≠ a) :
    Memory.read (Memory.write m a b) k = Memory.read m k := by
  induction m with
  | nil => simp [Memory.write, Memory.read, Ne.symm h]
  | cons c m ih =>
    simp only [Memory.write]
    split
    · simp [Memory.read, Ne.symm h]
    · split
      · rename_i heq
        simp [Memory.read, Ne.symm h, ← heq]
      · simp [Memory.read, ih]

theorem Memory.read_write (m : Memory) (a k : Nat) (b : Byte) :
    Memory.read (Memory.write m a b) k = if k = a then some b else Memory.read m k := by
  split
  · rename_i h; rw [h, Memory.read_write_same]
  · rename_i h; exact Memory.read_write_other m a k b h

/-- The cells of a memory with one byte written are old cells and the new one. -/
theorem Memory.mem_write {m : Memory} {a : Nat} {b : Byte} {c : Host.Cell} (h : c ∈ Memory.write m a b) :
    c = (a, b) ∨ c ∈ m := by
  induction m with
  | nil => simpa [Memory.write] using h
  | cons d m ih =>
    simp only [Memory.write] at h
    split at h
    · simpa using h
    · split at h
      · simp only [List.mem_cons] at h ⊢
        exact h.imp_right .inr
      · simp only [List.mem_cons] at h ⊢
        rcases h with h | h
        · exact .inr (.inl h)
        · exact (ih h).imp_right .inr

/-- A write keeps the canonical form. -/
theorem Memory.write_wf (m : Memory) (a : Nat) (b : Byte) (h : Memory.wf m) : Memory.wf (Memory.write m a b) := by
  induction m with
  | nil => simp [Memory.write]
  | cons c m ih =>
    have hc := List.pairwise_cons.mp h
    simp only [Memory.write]
    split
    · rename_i hlt
      refine List.pairwise_cons.mpr ⟨fun d hd => ?_, h⟩
      rcases List.mem_cons.mp hd with rfl | hd
      · exact hlt
      · exact Nat.lt_trans hlt (hc.1 d hd)
    · split
      · rename_i heq
        exact List.pairwise_cons.mpr ⟨fun d hd => by simpa [heq] using hc.1 d hd, hc.2⟩
      · refine List.pairwise_cons.mpr ⟨fun d hd => ?_, ih hc.2⟩
        rcases Memory.mem_write hd with rfl | hd
        · simp only; omega
        · exact hc.1 d hd

theorem Memory.writeList_wf (bs : List Byte) (m : Memory) (a : Nat) (h : Memory.wf m) :
    Memory.wf (Memory.writeList m a bs) := by
  induction bs generalizing m a with
  | nil => exact h
  | cons b bs ih => exact ih _ _ (Memory.write_wf m a b h)

/-- A run of bytes written: each address of the run reads its byte, every other address reads as before. -/
theorem Memory.read_writeList (bs : List Byte) (m : Memory) (a k : Nat) :
    Memory.read (Memory.writeList m a bs) k =
      if a ≤ k ∧ k < a + bs.length then bs[k - a]? else Memory.read m k := by
  induction bs generalizing m a with
  | nil =>
    rw [if_neg (by simp only [List.length_nil]; omega)]
    rfl
  | cons b bs ih =>
    simp only [Memory.writeList, ih, Memory.read_write, List.length_cons]
    by_cases h1 : k = a
    · subst h1; simp
    · by_cases h2 : a + 1 ≤ k ∧ k < a + 1 + bs.length
      · rw [if_pos h2, if_pos (by omega), show k - a = (k - (a + 1)) + 1 by omega, List.getElem?_cons_succ]
      · rw [if_neg h2, if_neg h1, if_neg (by omega)]

theorem Memory.mem_writeList {bs : List Byte} {m : Memory} {a : Nat} {c : Host.Cell}
    (h : c ∈ Memory.writeList m a bs) : (a ≤ c.1 ∧ c.1 < a + bs.length) ∨ c ∈ m := by
  induction bs generalizing m a with
  | nil => exact .inr h
  | cons b bs ih =>
    simp only [List.length_cons]
    rcases ih h with h | h
    · left; omega
    · rcases Memory.mem_write h with rfl | h
      · left; simp only; omega
      · exact .inr h

theorem Memory.writeList_append (bs cs : List Byte) (m : Memory) (a : Nat) :
    Memory.writeList m a (bs ++ cs) = Memory.writeList (Memory.writeList m a bs) (a + bs.length) cs := by
  induction bs generalizing m a with
  | nil => rfl
  | cons b bs ih =>
    simp only [List.cons_append, Memory.writeList, ih, List.length_cons]
    congr 1; omega

/-- Reading a run succeeds exactly when every byte of it holds a value, and gives those bytes. -/
theorem Memory.readList_eq_some (n : Nat) (m : Memory) (a : Nat) (bs : List Byte) :
    Memory.readList m a n = some bs ↔ bs.length = n ∧ ∀ j < n, Memory.read m (a + j) = bs[j]? := by
  induction n generalizing a bs with
  | zero =>
    simp only [Memory.readList, Option.some.injEq, Nat.not_lt_zero, false_implies, implies_true, and_true]
    exact ⟨fun h => by simp [← h], fun h => (List.length_eq_zero_iff.mp h).symm⟩
  | succ n ih =>
    rw [Memory.readList]
    constructor
    · intro h
      split at h
      · rename_i b cs hb hcs
        obtain rfl : b :: cs = bs := by simpa using h
        obtain ⟨hl, hr⟩ := (ih (a + 1) cs).mp hcs
        refine ⟨by simp [hl], fun j hj => ?_⟩
        cases j with
        | zero => simpa using hb
        | succ j => rw [show a + (j + 1) = a + 1 + j by omega, hr j (by omega)]; simp
      · cases h
    · rintro ⟨hl, hr⟩
      match bs, hl with
      | b :: cs, hl =>
        have h0 : Memory.read m a = some b := by simpa using hr 0 (by omega)
        have h1 : Memory.readList m (a + 1) n = some cs := (ih (a + 1) cs).mpr
          ⟨by simpa using hl, fun j hj => by
            rw [show a + 1 + j = a + (j + 1) by omega, hr (j + 1) (by omega)]; simp⟩
        rw [h0, h1]

/-- A run whose every byte holds a value can be read. -/
theorem Memory.readList_isSome (n : Nat) (m : Memory) (a : Nat) (h : ∀ j < n, (Memory.read m (a + j)).isSome) :
    ∃ bs, Memory.readList m a n = some bs := by
  induction n generalizing a with
  | zero => exact ⟨[], rfl⟩
  | succ n ih =>
    obtain ⟨b, hb⟩ := Option.isSome_iff_exists.mp (h 0 (by omega))
    obtain ⟨cs, hcs⟩ := ih (a + 1) (fun j hj => by
      rw [show a + 1 + j = a + (j + 1) by omega]; exact h (j + 1) (by omega))
    exact ⟨b :: cs, by rw [Memory.readList, hcs]; rw [Nat.add_zero] at hb; rw [hb]⟩

/-- A run cut out of a buffer that was written whole. -/
theorem Memory.readList_writeList (bs : List Byte) (m : Memory) (a n : Nat) (h : a + n ≤ bs.length) :
    Memory.readList (Memory.writeList m 0 bs) a n = some ((bs.drop a).take n) := by
  refine (Memory.readList_eq_some n _ a _).mpr ⟨by simp; omega, fun j hj => ?_⟩
  rw [Memory.read_writeList, if_pos (by omega)]
  simp [List.getElem?_drop, hj]

/-- The memory after reset has the canonical form. -/
theorem Memory.reset_wf : Memory.wf State.reset.tb := List.Pairwise.nil

end Sys2Proof.Machine
end

