-- ==== Sys2Proof/Laws/State.lean ====
section
/-! SUPPORT. One lemma per field per named update of State, so that no proof unfolds a record update. -/

namespace Sys2Proof.Machine

section
variable (s : State)

/-! A codec call returns (40_codec.md rule R93). -/

@[simp] theorem State.answer_owned (out : CodecOut) : (s.answer out).owned = s.owned := rfl
@[simp] theorem State.answer_phase (out : CodecOut) : (s.answer out).phase = s.phase := rfl
@[simp] theorem State.answer_op (out : CodecOut) : (s.answer out).op = s.op := rfl
@[simp] theorem State.answer_addr (out : CodecOut) : (s.answer out).addr = s.addr := rfl
@[simp] theorem State.answer_mm (out : CodecOut) : (s.answer out).mm = s.mm := rfl
@[simp] theorem State.answer_len (out : CodecOut) : (s.answer out).len = s.len := rfl
@[simp] theorem State.answer_wdata (out : CodecOut) : (s.answer out).wdata = s.wdata := rfl
@[simp] theorem State.answer_hdr (out : CodecOut) : (s.answer out).hdr = s.hdr := rfl
@[simp] theorem State.answer_hdrBuilt (out : CodecOut) : (s.answer out).hdrBuilt = s.hdrBuilt := rfl
@[simp] theorem State.answer_tb (out : CodecOut) : (s.answer out).tb = s.tb := rfl
@[simp] theorem State.answer_bidx (out : CodecOut) : (s.answer out).bidx = s.bidx := rfl
@[simp] theorem State.answer_echo (out : CodecOut) : (s.answer out).echo = s.echo := rfl
@[simp] theorem State.answer_done (out : CodecOut) : (s.answer out).done = s.done := rfl
@[simp] theorem State.answer_status (out : CodecOut) : (s.answer out).status = s.status := rfl
@[simp] theorem State.answer_rdata (out : CodecOut) : (s.answer out).rdata = s.rdata := rfl
@[simp] theorem State.answer_resetReq (out : CodecOut) : (s.answer out).resetReq = s.resetReq := rfl
@[simp] theorem State.answer_calls (out : CodecOut) : (s.answer out).calls = s.calls.tail := rfl
@[simp] theorem State.answer_unwrap (out : CodecOut) : (s.answer out).unwrap = s.unwrap := rfl
@[simp] theorem State.answer_codecOut (out : CodecOut) : (s.answer out).codecOut = out := rfl
@[simp] theorem State.answer_line (out : CodecOut) : (s.answer out).line = s.line := rfl
@[simp] theorem State.answer_draws (out : CodecOut) : (s.answer out).draws = s.draws := rfl
@[simp] theorem State.answer_sent (out : CodecOut) : (s.answer out).sent = s.sent := rfl

/-! CONSTRUCT (41_engine.md rule R124). -/

@[simp] theorem State.takeTransport_owned : (s.takeTransport).owned = true := rfl
@[simp] theorem State.takeTransport_phase : (s.takeTransport).phase = .idle := rfl
@[simp] theorem State.takeTransport_op : (s.takeTransport).op = s.op := rfl
@[simp] theorem State.takeTransport_addr : (s.takeTransport).addr = s.addr := rfl
@[simp] theorem State.takeTransport_mm : (s.takeTransport).mm = s.mm := rfl
@[simp] theorem State.takeTransport_len : (s.takeTransport).len = s.len := rfl
@[simp] theorem State.takeTransport_wdata : (s.takeTransport).wdata = s.wdata := rfl
@[simp] theorem State.takeTransport_hdr : (s.takeTransport).hdr = s.hdr := rfl
@[simp] theorem State.takeTransport_hdrBuilt : (s.takeTransport).hdrBuilt = s.hdrBuilt := rfl
@[simp] theorem State.takeTransport_tb : (s.takeTransport).tb = s.tb := rfl
@[simp] theorem State.takeTransport_bidx : (s.takeTransport).bidx = s.bidx := rfl
@[simp] theorem State.takeTransport_echo : (s.takeTransport).echo = s.echo := rfl
@[simp] theorem State.takeTransport_done : (s.takeTransport).done = false := rfl
@[simp] theorem State.takeTransport_status : (s.takeTransport).status = s.status := rfl
@[simp] theorem State.takeTransport_rdata : (s.takeTransport).rdata = s.rdata := rfl
@[simp] theorem State.takeTransport_resetReq : (s.takeTransport).resetReq = s.resetReq := rfl
@[simp] theorem State.takeTransport_calls : (s.takeTransport).calls = s.calls.tail := rfl
@[simp] theorem State.takeTransport_unwrap : (s.takeTransport).unwrap = s.unwrap := rfl
@[simp] theorem State.takeTransport_codecOut : (s.takeTransport).codecOut = s.codecOut := rfl
@[simp] theorem State.takeTransport_line : (s.takeTransport).line = s.line := rfl
@[simp] theorem State.takeTransport_draws : (s.takeTransport).draws = s.draws := rfl
@[simp] theorem State.takeTransport_sent : (s.takeTransport).sent = s.sent := rfl

/-! Step ACCEPT (rule R129). -/

@[simp] theorem State.accept_owned (o : BitVec 1) (a : BitVec 16) (m : BitVec 4) (l : BitVec 7) (ws : List Word) (u : Bool) : (s.accept o a m l ws u).owned = s.owned := rfl
@[simp] theorem State.accept_phase (o : BitVec 1) (a : BitVec 16) (m : BitVec 4) (l : BitVec 7) (ws : List Word) (u : Bool) : (s.accept o a m l ws u).phase = .encode := rfl
@[simp] theorem State.accept_op (o : BitVec 1) (a : BitVec 16) (m : BitVec 4) (l : BitVec 7) (ws : List Word) (u : Bool) : (s.accept o a m l ws u).op = o := rfl
@[simp] theorem State.accept_addr (o : BitVec 1) (a : BitVec 16) (m : BitVec 4) (l : BitVec 7) (ws : List Word) (u : Bool) : (s.accept o a m l ws u).addr = a := rfl
@[simp] theorem State.accept_mm (o : BitVec 1) (a : BitVec 16) (m : BitVec 4) (l : BitVec 7) (ws : List Word) (u : Bool) : (s.accept o a m l ws u).mm = m := rfl
@[simp] theorem State.accept_len (o : BitVec 1) (a : BitVec 16) (m : BitVec 4) (l : BitVec 7) (ws : List Word) (u : Bool) : (s.accept o a m l ws u).len = l := rfl
@[simp] theorem State.accept_wdata (o : BitVec 1) (a : BitVec 16) (m : BitVec 4) (l : BitVec 7) (ws : List Word) (u : Bool) : (s.accept o a m l ws u).wdata = ws := rfl
@[simp] theorem State.accept_hdr (o : BitVec 1) (a : BitVec 16) (m : BitVec 4) (l : BitVec 7) (ws : List Word) (u : Bool) : (s.accept o a m l ws u).hdr = s.hdr := rfl
@[simp] theorem State.accept_hdrBuilt (o : BitVec 1) (a : BitVec 16) (m : BitVec 4) (l : BitVec 7) (ws : List Word) (u : Bool) : (s.accept o a m l ws u).hdrBuilt = false := rfl
@[simp] theorem State.accept_tb (o : BitVec 1) (a : BitVec 16) (m : BitVec 4) (l : BitVec 7) (ws : List Word) (u : Bool) : (s.accept o a m l ws u).tb = s.tb := rfl
@[simp] theorem State.accept_bidx (o : BitVec 1) (a : BitVec 16) (m : BitVec 4) (l : BitVec 7) (ws : List Word) (u : Bool) : (s.accept o a m l ws u).bidx = s.bidx := rfl
@[simp] theorem State.accept_echo (o : BitVec 1) (a : BitVec 16) (m : BitVec 4) (l : BitVec 7) (ws : List Word) (u : Bool) : (s.accept o a m l ws u).echo = s.echo := rfl
@[simp] theorem State.accept_done (o : BitVec 1) (a : BitVec 16) (m : BitVec 4) (l : BitVec 7) (ws : List Word) (u : Bool) : (s.accept o a m l ws u).done = false := rfl
@[simp] theorem State.accept_status (o : BitVec 1) (a : BitVec 16) (m : BitVec 4) (l : BitVec 7) (ws : List Word) (u : Bool) : (s.accept o a m l ws u).status = s.status := rfl
@[simp] theorem State.accept_rdata (o : BitVec 1) (a : BitVec 16) (m : BitVec 4) (l : BitVec 7) (ws : List Word) (u : Bool) : (s.accept o a m l ws u).rdata = [] := rfl
@[simp] theorem State.accept_resetReq (o : BitVec 1) (a : BitVec 16) (m : BitVec 4) (l : BitVec 7) (ws : List Word) (u : Bool) : (s.accept o a m l ws u).resetReq = s.resetReq := rfl
@[simp] theorem State.accept_calls (o : BitVec 1) (a : BitVec 16) (m : BitVec 4) (l : BitVec 7) (ws : List Word) (u : Bool) : (s.accept o a m l ws u).calls = s.calls.tail := rfl
@[simp] theorem State.accept_unwrap (o : BitVec 1) (a : BitVec 16) (m : BitVec 4) (l : BitVec 7) (ws : List Word) (u : Bool) : (s.accept o a m l ws u).unwrap = u := rfl
@[simp] theorem State.accept_codecOut (o : BitVec 1) (a : BitVec 16) (m : BitVec 4) (l : BitVec 7) (ws : List Word) (u : Bool) : (s.accept o a m l ws u).codecOut = s.codecOut := rfl
@[simp] theorem State.accept_line (o : BitVec 1) (a : BitVec 16) (m : BitVec 4) (l : BitVec 7) (ws : List Word) (u : Bool) : (s.accept o a m l ws u).line = s.line := rfl
@[simp] theorem State.accept_draws (o : BitVec 1) (a : BitVec 16) (m : BitVec 4) (l : BitVec 7) (ws : List Word) (u : Bool) : (s.accept o a m l ws u).draws = s.draws := rfl
@[simp] theorem State.accept_sent (o : BitVec 1) (a : BitVec 16) (m : BitVec 4) (l : BitVec 7) (ws : List Word) (u : Bool) : (s.accept o a m l ws u).sent = s.sent := rfl

/-! Step ENCODE (rule R130). -/

@[simp] theorem State.buildHeader_owned : (s.buildHeader).owned = s.owned := rfl
@[simp] theorem State.buildHeader_phase : (s.buildHeader).phase = s.phase := rfl
@[simp] theorem State.buildHeader_op : (s.buildHeader).op = s.op := rfl
@[simp] theorem State.buildHeader_addr : (s.buildHeader).addr = s.addr := rfl
@[simp] theorem State.buildHeader_mm : (s.buildHeader).mm = s.mm := rfl
@[simp] theorem State.buildHeader_len : (s.buildHeader).len = s.len := rfl
@[simp] theorem State.buildHeader_wdata : (s.buildHeader).wdata = s.wdata := rfl
@[simp] theorem State.buildHeader_hdr : (s.buildHeader).hdr = encodeHeader s.len.toNat s.addr.toNat s.mm.toNat Config.engineAid s.op := rfl
@[simp] theorem State.buildHeader_hdrBuilt : (s.buildHeader).hdrBuilt = true := rfl
@[simp] theorem State.buildHeader_tb : (s.buildHeader).tb = s.tb := rfl
@[simp] theorem State.buildHeader_bidx : (s.buildHeader).bidx = s.bidx := rfl
@[simp] theorem State.buildHeader_echo : (s.buildHeader).echo = s.echo := rfl
@[simp] theorem State.buildHeader_done : (s.buildHeader).done = s.done := rfl
@[simp] theorem State.buildHeader_status : (s.buildHeader).status = s.status := rfl
@[simp] theorem State.buildHeader_rdata : (s.buildHeader).rdata = s.rdata := rfl
@[simp] theorem State.buildHeader_resetReq : (s.buildHeader).resetReq = s.resetReq := rfl
@[simp] theorem State.buildHeader_calls : (s.buildHeader).calls = s.calls := rfl
@[simp] theorem State.buildHeader_unwrap : (s.buildHeader).unwrap = s.unwrap := rfl
@[simp] theorem State.buildHeader_codecOut : (s.buildHeader).codecOut = s.codecOut := rfl
@[simp] theorem State.buildHeader_line : (s.buildHeader).line = s.line := rfl
@[simp] theorem State.buildHeader_draws : (s.buildHeader).draws = s.draws := rfl
@[simp] theorem State.buildHeader_sent : (s.buildHeader).sent = s.sent := rfl

/-! Another buffer content (10_state.md rule R35). -/

@[simp] theorem State.withBuffer_owned (m : Memory) : (s.withBuffer m).owned = s.owned := rfl
@[simp] theorem State.withBuffer_phase (m : Memory) : (s.withBuffer m).phase = s.phase := rfl
@[simp] theorem State.withBuffer_op (m : Memory) : (s.withBuffer m).op = s.op := rfl
@[simp] theorem State.withBuffer_addr (m : Memory) : (s.withBuffer m).addr = s.addr := rfl
@[simp] theorem State.withBuffer_mm (m : Memory) : (s.withBuffer m).mm = s.mm := rfl
@[simp] theorem State.withBuffer_len (m : Memory) : (s.withBuffer m).len = s.len := rfl
@[simp] theorem State.withBuffer_wdata (m : Memory) : (s.withBuffer m).wdata = s.wdata := rfl
@[simp] theorem State.withBuffer_hdr (m : Memory) : (s.withBuffer m).hdr = s.hdr := rfl
@[simp] theorem State.withBuffer_hdrBuilt (m : Memory) : (s.withBuffer m).hdrBuilt = s.hdrBuilt := rfl
@[simp] theorem State.withBuffer_tb (m : Memory) : (s.withBuffer m).tb = m := rfl
@[simp] theorem State.withBuffer_bidx (m : Memory) : (s.withBuffer m).bidx = s.bidx := rfl
@[simp] theorem State.withBuffer_echo (m : Memory) : (s.withBuffer m).echo = s.echo := rfl
@[simp] theorem State.withBuffer_done (m : Memory) : (s.withBuffer m).done = s.done := rfl
@[simp] theorem State.withBuffer_status (m : Memory) : (s.withBuffer m).status = s.status := rfl
@[simp] theorem State.withBuffer_rdata (m : Memory) : (s.withBuffer m).rdata = s.rdata := rfl
@[simp] theorem State.withBuffer_resetReq (m : Memory) : (s.withBuffer m).resetReq = s.resetReq := rfl
@[simp] theorem State.withBuffer_calls (m : Memory) : (s.withBuffer m).calls = s.calls := rfl
@[simp] theorem State.withBuffer_unwrap (m : Memory) : (s.withBuffer m).unwrap = s.unwrap := rfl
@[simp] theorem State.withBuffer_codecOut (m : Memory) : (s.withBuffer m).codecOut = s.codecOut := rfl
@[simp] theorem State.withBuffer_line (m : Memory) : (s.withBuffer m).line = s.line := rfl
@[simp] theorem State.withBuffer_draws (m : Memory) : (s.withBuffer m).draws = s.draws := rfl
@[simp] theorem State.withBuffer_sent (m : Memory) : (s.withBuffer m).sent = s.sent := rfl

/-! The exchange is entered (10_state.md rule R23). -/

@[simp] theorem State.enterExchange_owned : (s.enterExchange).owned = s.owned := rfl
@[simp] theorem State.enterExchange_phase : (s.enterExchange).phase = .exchange := rfl
@[simp] theorem State.enterExchange_op : (s.enterExchange).op = s.op := rfl
@[simp] theorem State.enterExchange_addr : (s.enterExchange).addr = s.addr := rfl
@[simp] theorem State.enterExchange_mm : (s.enterExchange).mm = s.mm := rfl
@[simp] theorem State.enterExchange_len : (s.enterExchange).len = s.len := rfl
@[simp] theorem State.enterExchange_wdata : (s.enterExchange).wdata = s.wdata := rfl
@[simp] theorem State.enterExchange_hdr : (s.enterExchange).hdr = s.hdr := rfl
@[simp] theorem State.enterExchange_hdrBuilt : (s.enterExchange).hdrBuilt = s.hdrBuilt := rfl
@[simp] theorem State.enterExchange_tb : (s.enterExchange).tb = s.tb := rfl
@[simp] theorem State.enterExchange_bidx : (s.enterExchange).bidx = 0 := rfl
@[simp] theorem State.enterExchange_echo : (s.enterExchange).echo = s.echo := rfl
@[simp] theorem State.enterExchange_done : (s.enterExchange).done = s.done := rfl
@[simp] theorem State.enterExchange_status : (s.enterExchange).status = s.status := rfl
@[simp] theorem State.enterExchange_rdata : (s.enterExchange).rdata = s.rdata := rfl
@[simp] theorem State.enterExchange_resetReq : (s.enterExchange).resetReq = s.resetReq := rfl
@[simp] theorem State.enterExchange_calls : (s.enterExchange).calls = s.calls := rfl
@[simp] theorem State.enterExchange_unwrap : (s.enterExchange).unwrap = s.unwrap := rfl
@[simp] theorem State.enterExchange_codecOut : (s.enterExchange).codecOut = s.codecOut := rfl
@[simp] theorem State.enterExchange_line : (s.enterExchange).line = s.line := rfl
@[simp] theorem State.enterExchange_draws : (s.enterExchange).draws = s.draws := rfl
@[simp] theorem State.enterExchange_sent : (s.enterExchange).sent = s.sent := rfl

/-! A byte put on the line (41_engine.md rule R134). -/

@[simp] theorem State.putOnLine_owned (x : Byte) : (s.putOnLine x).owned = s.owned := rfl
@[simp] theorem State.putOnLine_phase (x : Byte) : (s.putOnLine x).phase = s.phase := rfl
@[simp] theorem State.putOnLine_op (x : Byte) : (s.putOnLine x).op = s.op := rfl
@[simp] theorem State.putOnLine_addr (x : Byte) : (s.putOnLine x).addr = s.addr := rfl
@[simp] theorem State.putOnLine_mm (x : Byte) : (s.putOnLine x).mm = s.mm := rfl
@[simp] theorem State.putOnLine_len (x : Byte) : (s.putOnLine x).len = s.len := rfl
@[simp] theorem State.putOnLine_wdata (x : Byte) : (s.putOnLine x).wdata = s.wdata := rfl
@[simp] theorem State.putOnLine_hdr (x : Byte) : (s.putOnLine x).hdr = s.hdr := rfl
@[simp] theorem State.putOnLine_hdrBuilt (x : Byte) : (s.putOnLine x).hdrBuilt = s.hdrBuilt := rfl
@[simp] theorem State.putOnLine_tb (x : Byte) : (s.putOnLine x).tb = s.tb := rfl
@[simp] theorem State.putOnLine_bidx (x : Byte) : (s.putOnLine x).bidx = s.bidx := rfl
@[simp] theorem State.putOnLine_echo (x : Byte) : (s.putOnLine x).echo = s.echo := rfl
@[simp] theorem State.putOnLine_done (x : Byte) : (s.putOnLine x).done = s.done := rfl
@[simp] theorem State.putOnLine_status (x : Byte) : (s.putOnLine x).status = s.status := rfl
@[simp] theorem State.putOnLine_rdata (x : Byte) : (s.putOnLine x).rdata = s.rdata := rfl
@[simp] theorem State.putOnLine_resetReq (x : Byte) : (s.putOnLine x).resetReq = s.resetReq := rfl
@[simp] theorem State.putOnLine_calls (x : Byte) : (s.putOnLine x).calls = s.calls := rfl
@[simp] theorem State.putOnLine_unwrap (x : Byte) : (s.putOnLine x).unwrap = s.unwrap := rfl
@[simp] theorem State.putOnLine_codecOut (x : Byte) : (s.putOnLine x).codecOut = s.codecOut := rfl
@[simp] theorem State.putOnLine_line (x : Byte) : (s.putOnLine x).line = s.line := rfl
@[simp] theorem State.putOnLine_draws (x : Byte) : (s.putOnLine x).draws = s.draws := rfl
@[simp] theorem State.putOnLine_sent (x : Byte) : (s.putOnLine x).sent = s.sent ++ [x] := rfl

/-! The received byte taken (41_engine.md rule R134). -/

@[simp] theorem State.exchangeByte_owned (r : Byte) : (s.exchangeByte r).owned = s.owned := rfl
@[simp] theorem State.exchangeByte_phase (r : Byte) : (s.exchangeByte r).phase = s.phase := rfl
@[simp] theorem State.exchangeByte_op (r : Byte) : (s.exchangeByte r).op = s.op := rfl
@[simp] theorem State.exchangeByte_addr (r : Byte) : (s.exchangeByte r).addr = s.addr := rfl
@[simp] theorem State.exchangeByte_mm (r : Byte) : (s.exchangeByte r).mm = s.mm := rfl
@[simp] theorem State.exchangeByte_len (r : Byte) : (s.exchangeByte r).len = s.len := rfl
@[simp] theorem State.exchangeByte_wdata (r : Byte) : (s.exchangeByte r).wdata = s.wdata := rfl
@[simp] theorem State.exchangeByte_hdr (r : Byte) : (s.exchangeByte r).hdr = s.hdr := rfl
@[simp] theorem State.exchangeByte_hdrBuilt (r : Byte) : (s.exchangeByte r).hdrBuilt = s.hdrBuilt := rfl
@[simp] theorem State.exchangeByte_tb (r : Byte) : (s.exchangeByte r).tb = Memory.write s.tb s.bidx.toNat r := rfl
@[simp] theorem State.exchangeByte_bidx (r : Byte) : (s.exchangeByte r).bidx = s.bidx + 1 := rfl
@[simp] theorem State.exchangeByte_echo (r : Byte) : (s.exchangeByte r).echo = s.echo := rfl
@[simp] theorem State.exchangeByte_done (r : Byte) : (s.exchangeByte r).done = s.done := rfl
@[simp] theorem State.exchangeByte_status (r : Byte) : (s.exchangeByte r).status = s.status := rfl
@[simp] theorem State.exchangeByte_rdata (r : Byte) : (s.exchangeByte r).rdata = s.rdata := rfl
@[simp] theorem State.exchangeByte_resetReq (r : Byte) : (s.exchangeByte r).resetReq = s.resetReq := rfl
@[simp] theorem State.exchangeByte_calls (r : Byte) : (s.exchangeByte r).calls = s.calls := rfl
@[simp] theorem State.exchangeByte_unwrap (r : Byte) : (s.exchangeByte r).unwrap = s.unwrap := rfl
@[simp] theorem State.exchangeByte_codecOut (r : Byte) : (s.exchangeByte r).codecOut = s.codecOut := rfl
@[simp] theorem State.exchangeByte_line (r : Byte) : (s.exchangeByte r).line = s.line := rfl
@[simp] theorem State.exchangeByte_draws (r : Byte) : (s.exchangeByte r).draws = s.draws := rfl
@[simp] theorem State.exchangeByte_sent (r : Byte) : (s.exchangeByte r).sent = s.sent := rfl

/-! The exchange succeeded (rule R133). -/

@[simp] theorem State.enterValidate_owned : (s.enterValidate).owned = s.owned := rfl
@[simp] theorem State.enterValidate_phase : (s.enterValidate).phase = .validate := rfl
@[simp] theorem State.enterValidate_op : (s.enterValidate).op = s.op := rfl
@[simp] theorem State.enterValidate_addr : (s.enterValidate).addr = s.addr := rfl
@[simp] theorem State.enterValidate_mm : (s.enterValidate).mm = s.mm := rfl
@[simp] theorem State.enterValidate_len : (s.enterValidate).len = s.len := rfl
@[simp] theorem State.enterValidate_wdata : (s.enterValidate).wdata = s.wdata := rfl
@[simp] theorem State.enterValidate_hdr : (s.enterValidate).hdr = s.hdr := rfl
@[simp] theorem State.enterValidate_hdrBuilt : (s.enterValidate).hdrBuilt = s.hdrBuilt := rfl
@[simp] theorem State.enterValidate_tb : (s.enterValidate).tb = s.tb := rfl
@[simp] theorem State.enterValidate_bidx : (s.enterValidate).bidx = s.bidx := rfl
@[simp] theorem State.enterValidate_echo : (s.enterValidate).echo = s.echo := rfl
@[simp] theorem State.enterValidate_done : (s.enterValidate).done = s.done := rfl
@[simp] theorem State.enterValidate_status : (s.enterValidate).status = s.status := rfl
@[simp] theorem State.enterValidate_rdata : (s.enterValidate).rdata = s.rdata := rfl
@[simp] theorem State.enterValidate_resetReq : (s.enterValidate).resetReq = s.resetReq := rfl
@[simp] theorem State.enterValidate_calls : (s.enterValidate).calls = s.calls := rfl
@[simp] theorem State.enterValidate_unwrap : (s.enterValidate).unwrap = s.unwrap := rfl
@[simp] theorem State.enterValidate_codecOut : (s.enterValidate).codecOut = s.codecOut := rfl
@[simp] theorem State.enterValidate_line : (s.enterValidate).line = s.line := rfl
@[simp] theorem State.enterValidate_draws : (s.enterValidate).draws = s.draws := rfl
@[simp] theorem State.enterValidate_sent : (s.enterValidate).sent = s.sent := rfl

/-! The echo is latched (rule R136). -/

@[simp] theorem State.latchEcho_owned (h : Word) : (s.latchEcho h).owned = s.owned := rfl
@[simp] theorem State.latchEcho_phase (h : Word) : (s.latchEcho h).phase = s.phase := rfl
@[simp] theorem State.latchEcho_op (h : Word) : (s.latchEcho h).op = s.op := rfl
@[simp] theorem State.latchEcho_addr (h : Word) : (s.latchEcho h).addr = s.addr := rfl
@[simp] theorem State.latchEcho_mm (h : Word) : (s.latchEcho h).mm = s.mm := rfl
@[simp] theorem State.latchEcho_len (h : Word) : (s.latchEcho h).len = s.len := rfl
@[simp] theorem State.latchEcho_wdata (h : Word) : (s.latchEcho h).wdata = s.wdata := rfl
@[simp] theorem State.latchEcho_hdr (h : Word) : (s.latchEcho h).hdr = s.hdr := rfl
@[simp] theorem State.latchEcho_hdrBuilt (h : Word) : (s.latchEcho h).hdrBuilt = s.hdrBuilt := rfl
@[simp] theorem State.latchEcho_tb (h : Word) : (s.latchEcho h).tb = s.tb := rfl
@[simp] theorem State.latchEcho_bidx (h : Word) : (s.latchEcho h).bidx = s.bidx := rfl
@[simp] theorem State.latchEcho_echo (h : Word) : (s.latchEcho h).echo = h := rfl
@[simp] theorem State.latchEcho_done (h : Word) : (s.latchEcho h).done = s.done := rfl
@[simp] theorem State.latchEcho_status (h : Word) : (s.latchEcho h).status = s.status := rfl
@[simp] theorem State.latchEcho_rdata (h : Word) : (s.latchEcho h).rdata = s.rdata := rfl
@[simp] theorem State.latchEcho_resetReq (h : Word) : (s.latchEcho h).resetReq = s.resetReq := rfl
@[simp] theorem State.latchEcho_calls (h : Word) : (s.latchEcho h).calls = s.calls := rfl
@[simp] theorem State.latchEcho_unwrap (h : Word) : (s.latchEcho h).unwrap = s.unwrap := rfl
@[simp] theorem State.latchEcho_codecOut (h : Word) : (s.latchEcho h).codecOut = s.codecOut := rfl
@[simp] theorem State.latchEcho_line (h : Word) : (s.latchEcho h).line = s.line := rfl
@[simp] theorem State.latchEcho_draws (h : Word) : (s.latchEcho h).draws = s.draws := rfl
@[simp] theorem State.latchEcho_sent (h : Word) : (s.latchEcho h).sent = s.sent := rfl

/-! An error ending (60_exceptions.md rule R158). -/

@[simp] theorem State.raise_owned (k : ErrorKind) : (s.raise k).owned = s.owned := rfl
@[simp] theorem State.raise_phase (k : ErrorKind) : (s.raise k).phase = .idle := rfl
@[simp] theorem State.raise_op (k : ErrorKind) : (s.raise k).op = s.op := rfl
@[simp] theorem State.raise_addr (k : ErrorKind) : (s.raise k).addr = s.addr := rfl
@[simp] theorem State.raise_mm (k : ErrorKind) : (s.raise k).mm = s.mm := rfl
@[simp] theorem State.raise_len (k : ErrorKind) : (s.raise k).len = s.len := rfl
@[simp] theorem State.raise_wdata (k : ErrorKind) : (s.raise k).wdata = s.wdata := rfl
@[simp] theorem State.raise_hdr (k : ErrorKind) : (s.raise k).hdr = s.hdr := rfl
@[simp] theorem State.raise_hdrBuilt (k : ErrorKind) : (s.raise k).hdrBuilt = s.hdrBuilt := rfl
@[simp] theorem State.raise_tb (k : ErrorKind) : (s.raise k).tb = [] := rfl
@[simp] theorem State.raise_bidx (k : ErrorKind) : (s.raise k).bidx = s.bidx := rfl
@[simp] theorem State.raise_echo (k : ErrorKind) : (s.raise k).echo = s.echo := rfl
@[simp] theorem State.raise_done (k : ErrorKind) : (s.raise k).done = true := rfl
@[simp] theorem State.raise_status (k : ErrorKind) : (s.raise k).status = k.status := rfl
@[simp] theorem State.raise_rdata (k : ErrorKind) : (s.raise k).rdata = s.rdata := rfl
@[simp] theorem State.raise_resetReq (k : ErrorKind) : (s.raise k).resetReq = s.resetReq := rfl
@[simp] theorem State.raise_calls (k : ErrorKind) : (s.raise k).calls = s.calls := rfl
@[simp] theorem State.raise_unwrap (k : ErrorKind) : (s.raise k).unwrap = s.unwrap := rfl
@[simp] theorem State.raise_codecOut (k : ErrorKind) : (s.raise k).codecOut = s.codecOut := rfl
@[simp] theorem State.raise_line (k : ErrorKind) : (s.raise k).line = s.line := rfl
@[simp] theorem State.raise_draws (k : ErrorKind) : (s.raise k).draws = s.draws := rfl
@[simp] theorem State.raise_sent (k : ErrorKind) : (s.raise k).sent = s.sent := rfl

/-! Completion (41_engine.md rule R137). -/

@[simp] theorem State.complete_owned (ws : List Word) : (s.complete ws).owned = s.owned := rfl
@[simp] theorem State.complete_phase (ws : List Word) : (s.complete ws).phase = .idle := rfl
@[simp] theorem State.complete_op (ws : List Word) : (s.complete ws).op = s.op := rfl
@[simp] theorem State.complete_addr (ws : List Word) : (s.complete ws).addr = s.addr := rfl
@[simp] theorem State.complete_mm (ws : List Word) : (s.complete ws).mm = s.mm := rfl
@[simp] theorem State.complete_len (ws : List Word) : (s.complete ws).len = s.len := rfl
@[simp] theorem State.complete_wdata (ws : List Word) : (s.complete ws).wdata = s.wdata := rfl
@[simp] theorem State.complete_hdr (ws : List Word) : (s.complete ws).hdr = s.hdr := rfl
@[simp] theorem State.complete_hdrBuilt (ws : List Word) : (s.complete ws).hdrBuilt = s.hdrBuilt := rfl
@[simp] theorem State.complete_tb (ws : List Word) : (s.complete ws).tb = [] := rfl
@[simp] theorem State.complete_bidx (ws : List Word) : (s.complete ws).bidx = s.bidx := rfl
@[simp] theorem State.complete_echo (ws : List Word) : (s.complete ws).echo = s.echo := rfl
@[simp] theorem State.complete_done (ws : List Word) : (s.complete ws).done = true := rfl
@[simp] theorem State.complete_status (ws : List Word) : (s.complete ws).status = .ok := rfl
@[simp] theorem State.complete_rdata (ws : List Word) : (s.complete ws).rdata = ws := rfl
@[simp] theorem State.complete_resetReq (ws : List Word) : (s.complete ws).resetReq = s.resetReq := rfl
@[simp] theorem State.complete_calls (ws : List Word) : (s.complete ws).calls = s.calls := rfl
@[simp] theorem State.complete_unwrap (ws : List Word) : (s.complete ws).unwrap = s.unwrap := rfl
@[simp] theorem State.complete_codecOut (ws : List Word) : (s.complete ws).codecOut = s.codecOut := rfl
@[simp] theorem State.complete_line (ws : List Word) : (s.complete ws).line = s.line := rfl
@[simp] theorem State.complete_draws (ws : List Word) : (s.complete ws).draws = s.draws := rfl
@[simp] theorem State.complete_sent (ws : List Word) : (s.complete ws).sent = s.sent := rfl

/-! The hardware reset (70_reset_and_hazards.md rule R178). -/

@[simp] theorem State.hwReset_owned : (s.hwReset).owned = false := rfl
@[simp] theorem State.hwReset_phase : (s.hwReset).phase = .idle := rfl
@[simp] theorem State.hwReset_op : (s.hwReset).op = 0 := rfl
@[simp] theorem State.hwReset_addr : (s.hwReset).addr = 0 := rfl
@[simp] theorem State.hwReset_mm : (s.hwReset).mm = 0 := rfl
@[simp] theorem State.hwReset_len : (s.hwReset).len = 0 := rfl
@[simp] theorem State.hwReset_wdata : (s.hwReset).wdata = [] := rfl
@[simp] theorem State.hwReset_hdr : (s.hwReset).hdr = 0 := rfl
@[simp] theorem State.hwReset_hdrBuilt : (s.hwReset).hdrBuilt = false := rfl
@[simp] theorem State.hwReset_tb : (s.hwReset).tb = [] := rfl
@[simp] theorem State.hwReset_bidx : (s.hwReset).bidx = 0 := rfl
@[simp] theorem State.hwReset_echo : (s.hwReset).echo = 0 := rfl
@[simp] theorem State.hwReset_done : (s.hwReset).done = false := rfl
@[simp] theorem State.hwReset_status : (s.hwReset).status = .ok := rfl
@[simp] theorem State.hwReset_rdata : (s.hwReset).rdata = [] := rfl
@[simp] theorem State.hwReset_resetReq : (s.hwReset).resetReq = false := rfl
@[simp] theorem State.hwReset_calls : (s.hwReset).calls = s.calls := rfl
@[simp] theorem State.hwReset_unwrap : (s.hwReset).unwrap = s.unwrap := rfl
@[simp] theorem State.hwReset_codecOut : (s.hwReset).codecOut = s.codecOut := rfl
@[simp] theorem State.hwReset_line : (s.hwReset).line = s.line := rfl
@[simp] theorem State.hwReset_draws : (s.hwReset).draws = s.draws := rfl
@[simp] theorem State.hwReset_sent : (s.hwReset).sent = s.sent := rfl

/-! The status of each error kind (10_state.md rule R26). -/

omit s in
@[simp] theorem ErrorKind.ioError_status : ErrorKind.ioError.status = .ioError := rfl
omit s in
@[simp] theorem ErrorKind.headerBadError_status : ErrorKind.headerBadError.status = .headerBadError := rfl

/-! The transport's answer used up (rule R9). -/

@[simp] theorem State.useAnswer_owned : s.useAnswer.owned = s.owned := by unfold State.useAnswer; split <;> rfl
@[simp] theorem State.useAnswer_phase : s.useAnswer.phase = s.phase := by unfold State.useAnswer; split <;> rfl
@[simp] theorem State.useAnswer_op : s.useAnswer.op = s.op := by unfold State.useAnswer; split <;> rfl
@[simp] theorem State.useAnswer_addr : s.useAnswer.addr = s.addr := by unfold State.useAnswer; split <;> rfl
@[simp] theorem State.useAnswer_mm : s.useAnswer.mm = s.mm := by unfold State.useAnswer; split <;> rfl
@[simp] theorem State.useAnswer_len : s.useAnswer.len = s.len := by unfold State.useAnswer; split <;> rfl
@[simp] theorem State.useAnswer_wdata : s.useAnswer.wdata = s.wdata := by unfold State.useAnswer; split <;> rfl
@[simp] theorem State.useAnswer_hdr : s.useAnswer.hdr = s.hdr := by unfold State.useAnswer; split <;> rfl
@[simp] theorem State.useAnswer_hdrBuilt : s.useAnswer.hdrBuilt = s.hdrBuilt := by unfold State.useAnswer; split <;> rfl
@[simp] theorem State.useAnswer_tb : s.useAnswer.tb = s.tb := by unfold State.useAnswer; split <;> rfl
@[simp] theorem State.useAnswer_bidx : s.useAnswer.bidx = s.bidx := by unfold State.useAnswer; split <;> rfl
@[simp] theorem State.useAnswer_echo : s.useAnswer.echo = s.echo := by unfold State.useAnswer; split <;> rfl
@[simp] theorem State.useAnswer_done : s.useAnswer.done = s.done := by unfold State.useAnswer; split <;> rfl
@[simp] theorem State.useAnswer_status : s.useAnswer.status = s.status := by unfold State.useAnswer; split <;> rfl
@[simp] theorem State.useAnswer_rdata : s.useAnswer.rdata = s.rdata := by unfold State.useAnswer; split <;> rfl
@[simp] theorem State.useAnswer_resetReq : s.useAnswer.resetReq = s.resetReq := by unfold State.useAnswer; split <;> rfl
@[simp] theorem State.useAnswer_calls : s.useAnswer.calls = s.calls := by unfold State.useAnswer; split <;> rfl
@[simp] theorem State.useAnswer_unwrap : s.useAnswer.unwrap = s.unwrap := by unfold State.useAnswer; split <;> rfl
@[simp] theorem State.useAnswer_codecOut : s.useAnswer.codecOut = s.codecOut := by unfold State.useAnswer; split <;> rfl
@[simp] theorem State.useAnswer_sent : s.useAnswer.sent = s.sent := by unfold State.useAnswer; split <;> rfl

/-- L is a function of the latch alone (20_memory.md rule R42). -/
theorem State.frameLen_congr {s t : State} (h : t.len = s.len) : t.frameLen = s.frameLen := by
  simp only [State.frameLen, h]

theorem State.count_congr {s t : State} (h : t.len = s.len) : t.count = s.count := by
  simp only [State.count, h]

end

end Sys2Proof.Machine
end

