-- ==== Sys2Proof/Laws/Ops.lean ====
section
/-! SUPPORT. What each shared operation can do, said once: the buffer accesses, framing, extraction and the transport's
answers. -/

namespace Sys2Proof.Machine

theorem State.frameLen_eq (s : State) : s.frameLen = 8 + 4 * s.count := rfl

theorem State.count_eq (s : State) : s.count = s.len.toNat + 1 := rfl

/-! ### Buffer accesses -/

theorem State.memWrite_ok (s : State) (a : Nat) (v : List Byte) (h : a + v.length ≤ s.frameLen) :
    s.memWrite a v = .ok (s.withBuffer (Memory.writeList s.tb a v)) := if_pos h

theorem State.memRead_ok (s : State) (a n : Nat) (bs : List Byte) (h : a + n ≤ s.frameLen)
    (hr : Memory.readList s.tb a n = some bs) : s.memRead a n = .ok bs := by
  rw [State.memRead, if_pos h, hr]

/-- A buffer read that answers says the access was inside the frame and which bytes hold these values. -/
theorem State.memRead_inv {s : State} {a n : Nat} {bs : List Byte} (h : s.memRead a n = .ok bs) :
    a + n ≤ s.frameLen ∧ Memory.readList s.tb a n = some bs := by
  unfold State.memRead at h
  split at h
  · rename_i hl
    split at h
    · rename_i cs hc
      cases h
      exact ⟨hl, hc⟩
    · cases h
  · cases h

/-- Words written into the payload slot, where they fit. -/
theorem State.memWriteWords_ok (ws : List Word) (s : State) (k : Nat) (h : k + ws.length ≤ s.count) :
    s.memWriteWords k ws = .ok (s.withBuffer (Memory.writeList s.tb (8 + 4 * k) (ws.flatMap be32))) := by
  induction ws generalizing s k with
  | nil => rfl
  | cons w ws ih =>
    have hl := s.frameLen_eq
    simp only [List.length_cons] at h
    have hw : s.memWrite (Config.payOff + 4 * k) (be32 w) =
        .ok (s.withBuffer (Memory.writeList s.tb (8 + 4 * k) (be32 w))) :=
      s.memWrite_ok _ _ (by simp only [be32_length, Config.payOff]; omega)
    rw [State.memWriteWords, hw]
    simp only
    rw [ih _ (k + 1) (by rw [State.count_congr (s := s) (State.withBuffer_len _ _)]; omega)]
    simp only [List.flatMap_cons, Memory.writeList_append, be32_length]
    rfl

/-- Words read from the payload slot, where its bytes hold values. -/
theorem State.memReadWords_ok (n : Nat) (s : State) (k : Nat) (bs : List Byte) (h : k + n ≤ s.count)
    (hr : Memory.readList s.tb (8 + 4 * k) (4 * n) = some bs) : s.memReadWords k n = .ok (wordsOf bs) := by
  induction n generalizing k bs with
  | zero =>
    cases hr
    rfl
  | succ n ih =>
    have hl := s.frameLen_eq
    obtain ⟨hlen, hread⟩ := (Memory.readList_eq_some _ _ _ _).mp hr
    match bs, hlen with
    | b0 :: b1 :: b2 :: b3 :: rest, hlen =>
      have h4 : Memory.readList s.tb (8 + 4 * k) 4 = some [b0, b1, b2, b3] :=
        (Memory.readList_eq_some _ _ _ _).mpr ⟨rfl, fun j hj => by
          rw [hread j (by omega)]; interval_cases j <;> rfl⟩
      have hrest : Memory.readList s.tb (8 + 4 * (k + 1)) (4 * n) = some rest :=
        (Memory.readList_eq_some _ _ _ _).mpr ⟨by simp only [List.length_cons] at hlen; omega, fun j hj => by
          rw [show 8 + 4 * (k + 1) + j = 8 + 4 * k + (j + 4) by omega, hread (j + 4) (by omega)]; rfl⟩
      rw [State.memReadWords, s.memRead_ok (Config.payOff + 4 * k) 4 _ (by simp only [Config.payOff]; omega) h4,
        ih (k + 1) rest (by omega) hrest]
      rfl
    | [], hlen => simp at hlen
    | [_], hlen => simp at hlen; omega
    | [_, _], hlen => simp at hlen; omega
    | [_, _, _], hlen => simp at hlen; omega

/-! ### Framing (41_engine.md rule R131) -/

/-- The bytes of a frame: the header, the zeroed echo slot, the payload words. -/
def frameBytes (h : Word) (payload : List Word) : List Byte := be32 h ++ [0, 0, 0, 0] ++ payload.flatMap be32

theorem frameBytes_length (h : Word) (payload : List Word) :
    (frameBytes h payload).length = 8 + 4 * payload.length := by
  simp only [frameBytes, List.length_append, be32_length, flatMap_be32_length, List.length_cons, List.length_nil]

theorem frameBytes_header (h : Word) (ws : List Word) (k : Nat) (hk : k < 4) :
    (frameBytes h ws)[k]? = some (h.extractLsb' (24 - 8 * k) 8) := by
  rw [frameBytes, List.append_assoc, List.getElem?_append_left (by rw [be32_length]; omega), be32_getElem? h k hk]

theorem frameBytes_echo (h : Word) (ws : List Word) (k : Nat) (hk : 4 ≤ k) (h8 : k < 8) :
    (frameBytes h ws)[k]? = some 0 := by
  rw [frameBytes, List.append_assoc, List.getElem?_append_right (by rw [be32_length]; omega),
    List.getElem?_append_left (by simp only [be32_length, List.length_cons, List.length_nil]; omega), be32_length]
  interval_cases k <;> rfl

theorem frameBytes_payload (h : Word) (ws : List Word) (k j : Nat) (hj : j < 4) :
    (frameBytes h ws)[8 + 4 * k + j]? = (ws[k]?).map (fun w => w.extractLsb' (24 - 8 * j) 8) := by
  have hl : (be32 h ++ [0, 0, 0, 0]).length = 8 := rfl
  rw [frameBytes, List.getElem?_append_right (by omega), ← flatMap_be32_getElem? ws k j hj]
  congr 1; omega

/-- What a framed buffer reads: the frame's bytes inside it, no value outside it. -/
theorem Memory.read_frame (h : Word) (ws : List Word) (k : Nat) :
    Memory.read (Memory.writeList [] 0 (frameBytes h ws)) k =
      if k < 8 + 4 * ws.length then (frameBytes h ws)[k]? else none := by
  rw [Memory.read_writeList, frameBytes_length]
  simp only [Nat.zero_le, true_and, Nat.zero_add, Nat.sub_zero]
  split <;> rfl

/-- Framing with a payload of N words answers, and leaves exactly the frame's bytes in the buffer. -/
theorem State.frame_ok (s : State) (h : Word) (payload : List Word) (hp : payload.length = s.count) :
    s.frame h payload = .ok (s.withBuffer (Memory.writeList [] 0 (frameBytes h payload))).enterExchange := by
  have hl := s.frameLen_eq
  have h1 : (s.withBuffer []).memWrite 0 (be32 h) = .ok (s.withBuffer (Memory.writeList [] 0 (be32 h))) :=
    State.memWrite_ok _ _ _ (by
      rw [State.frameLen_congr (s := s) (State.withBuffer_len _ _)]; simp only [be32_length]; omega)
  have h2 : (s.withBuffer (Memory.writeList [] 0 (be32 h))).memWrite Config.echoOff [0, 0, 0, 0] =
      .ok (s.withBuffer (Memory.writeList (Memory.writeList [] 0 (be32 h)) 4 [0, 0, 0, 0])) :=
    State.memWrite_ok _ _ _ (by
      rw [State.frameLen_congr (s := s) (State.withBuffer_len _ _)]
      simp only [Config.echoOff, List.length_cons, List.length_nil]; omega)
  rw [State.frame, h1]
  simp only
  rw [h2]
  simp only
  rw [State.memWriteWords_ok _ _ _ (by rw [State.count_congr (s := s) (State.withBuffer_len _ _)]; omega)]
  simp only [frameBytes, Memory.writeList_append, be32_length]
  rfl

/-! ### Extraction (41_engine.md rule R137) -/

/-- A read whose payload bytes hold values completes with their words. -/
theorem State.extract_read (s : State) (bs : List Byte) (ho : s.op = 0)
    (hr : Memory.readList s.tb 8 (4 * s.count) = some bs) : s.extract = .ok (s.complete (wordsOf bs)) := by
  rw [State.extract, if_pos ho, s.memReadWords_ok s.count 0 bs (by omega) hr]

/-- A write completes without reading the buffer. -/
theorem State.extract_write (s : State) (ho : s.op = 1) : s.extract = .ok (s.complete s.rdata) := by
  rw [State.extract, if_neg (by rw [ho]; decide)]

/-! ### The transport's answers (00_scope.md rule R9) -/

theorem State.nextAnswer_cons {s : State} {e : LineEvent} {es : List LineEvent} (h : s.line = e :: es)
    (out : List Byte) : s.nextAnswer out = e := by
  rw [State.nextAnswer, h]

theorem State.useAnswer_cons {s : State} {e : LineEvent} {es : List LineEvent} (h : s.line = e :: es) :
    s.useAnswer = { s with line := es } := by
  rw [State.useAnswer, h]

/-- With nothing placed, the answer is a free draw. -/
theorem State.nextAnswer_nil {s : State} (h : s.line = []) (out : List Byte) :
    s.nextAnswer out = Config.lineDraw s.draws out := by
  rw [State.nextAnswer, h]

theorem State.useAnswer_nil {s : State} (h : s.line = []) : s.useAnswer = { s with draws := s.draws + 1 } := by
  rw [State.useAnswer, h]

end Sys2Proof.Machine
end

