-- ==== Sys2Proof/Laws/PerInstr.lean ====
section
/-! SUPPORT. Statements made per instruction. The family TableRow says that the bits an instruction is encoded in are
those of its row of spec/opcode_table.json: `(word & mask) == match` (30_encoding.md rule R92). -/

namespace Sys2Proof.Laws.TableRow

open Machine

/-- The bits of an image that the table gives: the selector byte of a call, or the header. -/
def tableBits : Image → Word
  | .call (.op []) => 0
  | .call (.op (b :: _)) => b.setWidth 32
  | .call (.convenience h) => h
  | .sent h => h
  | .received h => h

/-- The mask and match of each instruction's row, from the table. -/
def row : Instr → Word × Word
  | .encode _ _ _ _ _ => (0x1F, 0x00)
  | .calcParity _ => (0x1F, 0x01)
  | .toBytes _ => (0x1F, 0x02)
  | .fromBytes _ _ _ _ => (0x1F, 0x03)
  | .hdrOk _ => (0x1F, 0x04)
  | .getParity _ => (0x1F, 0x08)
  | .getLength _ => (0x1F, 0x09)
  | .getAddress _ => (0x1F, 0x0A)
  | .getMemmap _ => (0x1F, 0x0B)
  | .getAid _ => (0x1F, 0x0C)
  | .getWnr _ => (0x1F, 0x0D)
  | .getHdrb _ => (0x1F, 0x0E)
  | .getReserved _ => (0x1F, 0x0F)
  | .setParity _ _ => (0x1F, 0x10)
  | .setLength _ _ => (0x1F, 0x11)
  | .setAddress _ _ => (0x1F, 0x12)
  | .setMemmap _ _ => (0x1F, 0x13)
  | .setAid _ _ => (0x1F, 0x14)
  | .setWnr _ _ => (0x1F, 0x15)
  | .setHdrb _ _ => (0x1F, 0x16)
  | .setReserved _ _ => (0x1F, 0x17)
  | .construct => (0x1F, 0x18)
  | .execRead _ _ _ => (0x1F, 0x1A)
  | .execWrite _ _ _ _ => (0x1F, 0x1B)
  | .hdrCtrlRead _ _ _ _ _ => (0xE0000000, 0x00000000)
  | .hdrCtrlWrite _ _ _ _ _ => (0xE0000000, 0x20000000)
  | .hdrEngineRead _ _ _ _ => (0xF0000000, 0x10000000)
  | .hdrEngineWrite _ _ _ _ => (0xF0000000, 0x30000000)
  | .echoAccept _ _ _ _ _ _ _ => (0x40000000, 0x00000000)
  | .echoReject _ _ _ _ _ _ _ => (0x40000000, 0x40000000)
  | .getIdver => (0xFFFFFFFF, 0x10000000)
  | .getPhyid => (0xFFFFFFFF, 0x10000101)
  | .getCapability => (0xFFFFFFFF, 0x10000201)

/-- The instruction's encoding is in its row of the table. -/
def Statement (i : Instr) : Prop := tableBits (Sys2Proof.encode i) &&& (row i).1 = (row i).2

end Sys2Proof.Laws.TableRow

open Sys2Proof Sys2Proof.Machine Sys2Proof.Laws.TableRow

theorem Sys2Proof.Laws.TableRow.encode (l a m : Nat) (d w : BitVec 1) : Statement (.encode l a m d w) :=
  show (0x00#8).setWidth 32 &&& 0x1F#32 = 0x00#32 by decide
theorem Sys2Proof.Laws.TableRow.calcParity (h : Word) : Statement (.calcParity h) :=
  show (0x01#8).setWidth 32 &&& 0x1F#32 = 0x01#32 by decide
theorem Sys2Proof.Laws.TableRow.toBytes (h : Word) : Statement (.toBytes h) :=
  show (0x02#8).setWidth 32 &&& 0x1F#32 = 0x02#32 by decide
theorem Sys2Proof.Laws.TableRow.fromBytes (b0 b1 b2 b3 : Byte) : Statement (.fromBytes b0 b1 b2 b3) :=
  show (0x03#8).setWidth 32 &&& 0x1F#32 = 0x03#32 by decide
theorem Sys2Proof.Laws.TableRow.hdrOk (h : Word) : Statement (.hdrOk h) :=
  show (0x04#8).setWidth 32 &&& 0x1F#32 = 0x04#32 by decide
theorem Sys2Proof.Laws.TableRow.getParity (h : Word) : Statement (.getParity h) :=
  show (0x08#8).setWidth 32 &&& 0x1F#32 = 0x08#32 by decide
theorem Sys2Proof.Laws.TableRow.getLength (h : Word) : Statement (.getLength h) :=
  show (0x09#8).setWidth 32 &&& 0x1F#32 = 0x09#32 by decide
theorem Sys2Proof.Laws.TableRow.getAddress (h : Word) : Statement (.getAddress h) :=
  show (0x0A#8).setWidth 32 &&& 0x1F#32 = 0x0A#32 by decide
theorem Sys2Proof.Laws.TableRow.getMemmap (h : Word) : Statement (.getMemmap h) :=
  show (0x0B#8).setWidth 32 &&& 0x1F#32 = 0x0B#32 by decide
theorem Sys2Proof.Laws.TableRow.getAid (h : Word) : Statement (.getAid h) :=
  show (0x0C#8).setWidth 32 &&& 0x1F#32 = 0x0C#32 by decide
theorem Sys2Proof.Laws.TableRow.getWnr (h : Word) : Statement (.getWnr h) :=
  show (0x0D#8).setWidth 32 &&& 0x1F#32 = 0x0D#32 by decide
theorem Sys2Proof.Laws.TableRow.getHdrb (h : Word) : Statement (.getHdrb h) :=
  show (0x0E#8).setWidth 32 &&& 0x1F#32 = 0x0E#32 by decide
theorem Sys2Proof.Laws.TableRow.getReserved (h : Word) : Statement (.getReserved h) :=
  show (0x0F#8).setWidth 32 &&& 0x1F#32 = 0x0F#32 by decide
theorem Sys2Proof.Laws.TableRow.setParity (h : Word) (v : Nat) : Statement (.setParity h v) :=
  show (0x10#8).setWidth 32 &&& 0x1F#32 = 0x10#32 by decide
theorem Sys2Proof.Laws.TableRow.setLength (h : Word) (v : Nat) : Statement (.setLength h v) :=
  show (0x11#8).setWidth 32 &&& 0x1F#32 = 0x11#32 by decide
theorem Sys2Proof.Laws.TableRow.setAddress (h : Word) (v : Nat) : Statement (.setAddress h v) :=
  show (0x12#8).setWidth 32 &&& 0x1F#32 = 0x12#32 by decide
theorem Sys2Proof.Laws.TableRow.setMemmap (h : Word) (v : Nat) : Statement (.setMemmap h v) :=
  show (0x13#8).setWidth 32 &&& 0x1F#32 = 0x13#32 by decide
theorem Sys2Proof.Laws.TableRow.setAid (h : Word) (v : Nat) : Statement (.setAid h v) :=
  show (0x14#8).setWidth 32 &&& 0x1F#32 = 0x14#32 by decide
theorem Sys2Proof.Laws.TableRow.setWnr (h : Word) (v : Nat) : Statement (.setWnr h v) :=
  show (0x15#8).setWidth 32 &&& 0x1F#32 = 0x15#32 by decide
theorem Sys2Proof.Laws.TableRow.setHdrb (h : Word) (v : Nat) : Statement (.setHdrb h v) :=
  show (0x16#8).setWidth 32 &&& 0x1F#32 = 0x16#32 by decide
theorem Sys2Proof.Laws.TableRow.setReserved (h : Word) (v : Nat) : Statement (.setReserved h v) :=
  show (0x17#8).setWidth 32 &&& 0x1F#32 = 0x17#32 by decide
theorem Sys2Proof.Laws.TableRow.construct : Statement .construct :=
  show (0x18#8).setWidth 32 &&& 0x1F#32 = 0x18#32 by decide
theorem Sys2Proof.Laws.TableRow.execRead (a : BitVec 16) (m : BitVec 4) (n : Nat) : Statement (.execRead a m n) :=
  show (0x1A#8).setWidth 32 &&& 0x1F#32 = 0x1A#32 by decide
theorem Sys2Proof.Laws.TableRow.execWrite (a : BitVec 16) (m : BitVec 4) (n : Nat) (ws : List Word) :
    Statement (.execWrite a m n ws) :=
  show (0x1B#8).setWidth 32 &&& 0x1F#32 = 0x1B#32 by decide

theorem Sys2Proof.Laws.TableRow.hdrCtrlRead (p : BitVec 1) (l : BitVec 7) (a : BitVec 16) (m : BitVec 4)
    (d : BitVec 1) : Statement (.hdrCtrlRead p l a m d) :=
  (topBits (packHeader p l a m d 0 0 0)).2.2.1.mpr ⟨by simp, by simp, by simp⟩

theorem Sys2Proof.Laws.TableRow.hdrCtrlWrite (p : BitVec 1) (l : BitVec 7) (a : BitVec 16) (m : BitVec 4)
    (d : BitVec 1) : Statement (.hdrCtrlWrite p l a m d) :=
  (topBits (packHeader p l a m d 1 0 0)).2.2.2.1.mpr ⟨by simp, by simp, by simp⟩

theorem Sys2Proof.Laws.TableRow.hdrEngineRead (p : BitVec 1) (l : BitVec 7) (a : BitVec 16) (m : BitVec 4) :
    Statement (.hdrEngineRead p l a m) :=
  (topBits (packHeader p l a m 1 0 0 0)).1.mpr ⟨by simp, by simp, by simp, by simp⟩

theorem Sys2Proof.Laws.TableRow.hdrEngineWrite (p : BitVec 1) (l : BitVec 7) (a : BitVec 16) (m : BitVec 4) :
    Statement (.hdrEngineWrite p l a m) :=
  (topBits (packHeader p l a m 1 1 0 0)).2.1.mpr ⟨by simp, by simp, by simp, by simp⟩

theorem Sys2Proof.Laws.TableRow.echoAccept (p : BitVec 1) (l : BitVec 7) (a : BitVec 16) (m : BitVec 4)
    (d w r : BitVec 1) : Statement (.echoAccept p l a m d w r) :=
  (topBits (packHeader p l a m d w 0 r)).2.2.2.2.mpr (by simp)

theorem Sys2Proof.Laws.TableRow.echoReject (p : BitVec 1) (l : BitVec 7) (a : BitVec 16) (m : BitVec 4)
    (d w r : BitVec 1) : Statement (.echoReject p l a m d w r) := by
  show packHeader p l a m d w 1 r &&& 0x40000000#32 = 0x40000000#32
  rw [top_bits_eq _ _ _ (by decide)]
  simp only [packHeader_getLsbD]
  simp

theorem Sys2Proof.Laws.TableRow.getIdver : Statement .getIdver := by unfold Statement; decide
theorem Sys2Proof.Laws.TableRow.getPhyid : Statement .getPhyid := by unfold Statement; decide
theorem Sys2Proof.Laws.TableRow.getCapability : Statement .getCapability := by unfold Statement; decide
end

