-- ==== Sys2Proof/Laws/Run.lean ====
section
/-! SUPPORT. Running several steps: one step at a time, and one run after another. -/

namespace Sys2Proof.Machine

theorem hostRun_succ (M : Host.Core) (n : Nat) (s t : M.State) (h : M.step s = .next t) :
    M.run (n + 1) s = M.run n t := by
  rw [Host.Core.run, h]

theorem hostRun_add (M : Host.Core) (m n : Nat) (s t : M.State) (h : M.run m s = .next t) :
    M.run (m + n) s = M.run n t := by
  induction m generalizing s with
  | zero => cases h; rw [Nat.zero_add]
  | succ m ih =>
    rw [Nat.succ_add]
    rw [Host.Core.run] at h ⊢
    split at h
    · exact ih _ h
    · cases h
    · cases h

theorem run_zero (s : State) : run 0 s = .next s := rfl

/-- A run begins with one step. -/
theorem run_succ {n : Nat} {s t : State} (h : step s = .next t) : run (n + 1) s = run n t :=
  hostRun_succ core n s t h

/-- A run continues where another one ended. -/
theorem run_add {m : Nat} {s t : State} (n : Nat) (h : run m s = .next t) : run (m + n) s = run n t :=
  hostRun_add core m n s t h

/-! ### Answers with waits between them -/

/-- The next answer comes after some number of waits. -/
theorem delayed_cons (waits : List Nat) (e : LineEvent) (es : List LineEvent) :
    ∃ w ws, delayed waits (e :: es) = List.replicate w .wait ++ e :: delayed ws es := by
  cases waits with
  | nil => exact ⟨0, [], by cases es <;> rfl⟩
  | cons w ws => exact ⟨w, ws, rfl⟩

theorem delayed_nil (ws : List Nat) : delayed ws [] = [] := by cases ws <;> rfl

end Sys2Proof.Machine
end

