-- ==== Sys2Proof/Laws/Step.lean ====
section
/-! SUPPORT. What one step can do, said once: `StepCase` lists everything a step that answers a next state can have done,
and the lemmas after it say what a step does in each position. Proofs over all steps go by cases on `StepCase`. -/

namespace Sys2Proof.Machine

/-! ### What a meaning can answer -/

theorem State.memReadWords_length {s : State} {n k : Nat} {ws : List Word} (h : s.memReadWords k n = .ok ws) :
    ws.length = n := by
  induction n generalizing k ws with
  | zero => cases h; rfl
  | succ n ih =>
    rw [State.memReadWords] at h
    split at h
    · rename_i bs vs hb hv
      cases h
      obtain ⟨-, hr⟩ := State.memRead_inv hb
      obtain ⟨hl, -⟩ := (Memory.readList_eq_some _ _ _ _).mp hr
      rw [List.length_append, wordsOf_length 1 bs (by omega), ih hv]
      omega
    · cases h
    · cases h

/-- What framing can answer: the frame of N payload words, entered only from phase ENCODE with the header built. -/
theorem frameRead_next {h : Word} {s t : State} (hn : frameRead h s = .next t) :
    s.phase = .encode ∧ s.hdrBuilt = true ∧
      t = (s.withBuffer (Memory.writeList [] 0 (frameBytes h (List.replicate s.count 0)))).enterExchange := by
  unfold frameRead at hn
  split at hn
  · rename_i hc
    rw [s.frame_ok h _ (List.length_replicate)] at hn
    cases hn
    exact ⟨hc.1, hc.2, rfl⟩
  · cases hn

theorem frameWrite_next {h : Word} {s t : State} (hn : frameWrite h s = .next t) :
    s.phase = .encode ∧ s.hdrBuilt = true ∧ s.count ≤ s.wdata.length ∧
      t = (s.withBuffer (Memory.writeList [] 0 (frameBytes h (s.wdata.take s.count)))).enterExchange := by
  unfold frameWrite at hn
  split at hn
  · rename_i hc
    split at hn
    · rename_i hw
      rw [s.frame_ok h _ (by simp; omega)] at hn
      cases hn
      exact ⟨hc.1, hc.2, hw, rfl⟩
    · cases hn
  · cases hn

/-- What extraction can answer: a read's N words, or a write's completion. -/
theorem State.extract_ok {s t : State} (h : s.extract = .ok t) :
    (s.op = 0 ∧ ∃ ws, ws.length = s.count ∧ t = s.complete ws) ∨ (s.op ≠ 0 ∧ t = s.complete s.rdata) := by
  unfold State.extract at h
  split at h
  · rename_i ho
    split at h
    · rename_i ws hw
      cases h
      exact .inl ⟨ho, ws, State.memReadWords_length hw, rfl⟩
    · cases h
  · rename_i ho
    cases h
    exact .inr ⟨ho, rfl⟩

/-- What a command at the port can do: it is accepted by a ready engine, or it waits. -/
theorem offerCommand_next {s a t : State} (h : offerCommand s a = .next t) :
    (s.cmdReady = true ∧ t = a) ∨ (s.cmdReady = false ∧ t = s) := by
  unfold offerCommand at h
  split at h
  · rename_i hr; cases h; exact .inl ⟨hr, rfl⟩
  · rename_i hr; cases h; exact .inr ⟨by simpa using hr, rfl⟩

theorem State.cmdReady_iff (s : State) : s.cmdReady = true ↔ s.owned = true ∧ s.phase = .idle := by
  simp [State.cmdReady]

/-- What running a caller's call can do. -/
theorem exec_call_next {i : Instr} {s t : State} (hw : i.isWire = false) (h : exec i s = .next t) :
    (∃ out, t = s.answer out) ∨ (i = .construct ∧ s.owned = false ∧ t = s.takeTransport) ∨
      (s.cmdReady = false ∧ t = s) ∨
      (s.cmdReady = true ∧ ∃ op a m l ws u, t = s.accept op a m l ws u ∧
        (op = 0 ∧ ws = [] ∨ op = 1 ∧ ws.length = countOfLen l)) := by
  have command (a : BitVec 16) (m : BitVec 4) (l : BitVec 7) (ws : List Word) (op : BitVec 1) (u : Bool)
      (hop : op = 0 ∧ ws = [] ∨ op = 1 ∧ ws.length = countOfLen l)
      (h : offerCommand s (s.accept op a m l ws u) = .next t) :
      (∃ out, t = s.answer out) ∨ (i = .construct ∧ s.owned = false ∧ t = s.takeTransport) ∨
        (s.cmdReady = false ∧ t = s) ∨
        (s.cmdReady = true ∧ ∃ op a m l ws u, t = s.accept op a m l ws u ∧
          (op = 0 ∧ ws = [] ∨ op = 1 ∧ ws.length = countOfLen l)) := by
    rcases offerCommand_next h with ⟨hr, rfl⟩ | ⟨hr, rfl⟩
    · exact .inr (.inr (.inr ⟨hr, op, a, m, l, ws, u, rfl, hop⟩))
    · exact .inr (.inr (.inl ⟨hr, rfl⟩))
  cases i with
  | construct =>
    simp only [exec, execConstruct] at h
    split at h
    · cases h
    · rename_i ho; cases h; exact .inr (.inl ⟨rfl, by simpa using ho, rfl⟩)
  | execRead a m n =>
    simp only [exec, execExecRead] at h
    split at h
    · exact command a m _ _ _ _ (.inl ⟨rfl, rfl⟩) h
    · cases h
  | execWrite a m n ws =>
    simp only [exec, execExecWrite] at h
    split at h
    · rename_i ha
      obtain ⟨⟨h1, h2⟩, hl⟩ := (admitsWrite_iff _ _).mp ha
      exact command a m _ _ _ _ (.inr ⟨rfl, by rw [hl, count_of_len n h1 h2]⟩) h
    · cases h
  | getIdver => exact command _ _ _ _ _ _ (.inl ⟨rfl, rfl⟩) h
  | getPhyid => exact command _ _ _ _ _ _ (.inl ⟨rfl, rfl⟩) h
  | getCapability => exact command _ _ _ _ _ _ (.inl ⟨rfl, rfl⟩) h
  | hdrCtrlRead | hdrCtrlWrite | hdrEngineRead | hdrEngineWrite | echoAccept | echoReject =>
    simp [Instr.isWire] at hw
  | _ => cases h; exact .inl ⟨_, rfl⟩

/-! ### What one step can do -/

/-- Everything a step that answers `t` from `s` can have done. -/
inductive StepCase (s t : State) : Prop
  /-- In IDLE, nothing is offered, or the command offered waits (41_engine.md rule R147). -/
  | stay (hp : s.phase = .idle) (ht : t = s)
  /-- In IDLE, a requested reset is served. -/
  | reset (hp : s.phase = .idle) (hr : s.resetReq = true) (ht : t = s.hwReset)
  /-- In IDLE, a codec call returns. -/
  | codec (hp : s.phase = .idle) (out : CodecOut) (ht : t = s.answer out)
  /-- In IDLE, the engine is constructed. -/
  | construct (hp : s.phase = .idle) (ho : s.owned = false) (ht : t = s.takeTransport) (c : Call) (rest : List Call)
      (hc : s.calls = c :: rest) (hd : decode (.call c) = .ok .construct)
  /-- In IDLE, step ACCEPT. -/
  | accept (hp : s.phase = .idle) (ho : s.owned = true) (op : BitVec 1) (a : BitVec 16) (m : BitVec 4) (l : BitVec 7)
      (ws : List Word) (u : Bool) (ht : t = s.accept op a m l ws u)
      (hw : op = 0 ∧ ws = [] ∨ op = 1 ∧ ws.length = countOfLen l)
  /-- Step ENCODE. -/
  | encode (hp : s.phase = .encode) (hb : s.hdrBuilt = false) (ht : t = s.buildHeader)
  /-- Step FRAME. -/
  | frame (hp : s.phase = .encode) (hb : s.hdrBuilt = true) (payload : List Word) (hl : payload.length = s.count)
      (hw : payload = List.replicate s.count 0 ∨ payload = s.wdata.take s.count)
      (ht : t = (s.withBuffer (Memory.writeList [] 0 (frameBytes s.hdr payload))).enterExchange)
  /-- Step EXCHANGE: the transport has not answered yet. -/
  | wait (hp : s.phase = .exchange) (ht : t = s.useAnswer)
  /-- Step EXCHANGE: the transport fails in the byte time of a byte that is on the line. -/
  | failByte (hp : s.phase = .exchange) (hi : s.bidx.toNat < s.frameLen) (x : Byte)
      (hx : Memory.read s.tb s.bidx.toNat = some x) (ht : t = (s.useAnswer.putOnLine x).raise .ioError)
  /-- Step EXCHANGE: the transport fails after the last byte. -/
  | failEnd (hp : s.phase = .exchange) (hi : s.bidx.toNat = s.frameLen) (ht : t = s.useAnswer.raise .ioError)
  /-- Step EXCHANGE: one byte. -/
  | byte (hp : s.phase = .exchange) (hi : s.bidx.toNat < s.frameLen) (x r : Byte)
      (hx : Memory.read s.tb s.bidx.toNat = some x) (ht : t = (s.useAnswer.putOnLine x).exchangeByte r)
  /-- Step EXCHANGE: the whole frame was exchanged. -/
  | exchanged (hp : s.phase = .exchange) (hi : s.bidx.toNat = s.frameLen) (ht : t = s.useAnswer.enterValidate)
  /-- Step VALIDATE: the echo is rejected. -/
  | reject (hp : s.phase = .validate) (h : Word) (ht : t = (s.latchEcho h).raise .headerBadError)
  /-- Steps VALIDATE and EXTRACT of a read. -/
  | readDone (hp : s.phase = .validate) (ho : s.op = 0) (h : Word) (ws : List Word) (hl : ws.length = s.count)
      (ht : t = (s.latchEcho h).complete ws)
  /-- Steps VALIDATE and EXTRACT of a write. -/
  | writeDone (hp : s.phase = .validate) (ho : s.op ≠ 0) (h : Word) (ht : t = (s.latchEcho h).complete s.rdata)

theorem byteStep_next {s t : State} {x : Byte} (hp : s.phase = .exchange) (hi : s.bidx.toNat < s.frameLen)
    (hx : Memory.read s.tb s.bidx.toNat = some x) (h : byteStep s x = .next t) : StepCase s t := by
  unfold byteStep at h
  split at h
  · cases h; exact .wait hp rfl
  · cases h; exact .failByte hp hi x hx rfl
  · cases h; exact .byte hp hi x _ hx rfl

theorem finalStep_next {s t : State} (hp : s.phase = .exchange) (hi : s.bidx.toNat = s.frameLen)
    (h : finalStep s = .next t) : StepCase s t := by
  unfold finalStep at h
  split at h
  · cases h; exact .wait hp rfl
  · cases h; exact .failEnd hp hi rfl
  · cases h; exact .exchanged hp hi rfl

theorem exec_echo_next {s t : State} {h : Word} (hn : exec (decodeReceived h) s = .next t) : StepCase s t := by
  rcases decodeReceived_cases h with ⟨-, _, _, _, _, _, _, _, he, -⟩ | ⟨-, _, _, _, _, _, _, _, he, -⟩ <;> rw [he] at hn
  · simp only [exec, execEchoAccept] at hn
    split at hn
    · rename_i hp
      unfold outcomeOf at hn
      split at hn
      · rename_i u hx
        cases hn
        rcases State.extract_ok hx with ⟨ho, ws, hl, rfl⟩ | ⟨ho, rfl⟩
        · exact .readDone hp ho _ ws hl rfl
        · exact .writeDone hp ho _ rfl
      · cases hn
    · cases hn
  · simp only [exec, execEchoReject] at hn
    split at hn
    · rename_i hp
      cases hn
      exact .reject hp _ rfl
    · cases hn

theorem exec_header_next {s t : State} {i : Instr} (hd : decodeSent s.hdr = .ok i) (hn : exec i s = .next t) :
    StepCase s t := by
  rcases decodeSent_ok hd with ⟨p, l, a, m, rfl, hh⟩ | ⟨p, l, a, m, rfl, hh⟩ | ⟨p, l, a, m, rfl, hh⟩ | ⟨p, l, a, m, rfl, hh⟩
  · obtain ⟨hp, hb, ht⟩ := frameRead_next (h := packHeader p l a m 1 0 0 0) hn
    exact .frame hp hb _ List.length_replicate (.inl rfl) (hh ▸ ht)
  · obtain ⟨hp, hb, hw, ht⟩ := frameWrite_next (h := packHeader p l a m 1 1 0 0) hn
    exact .frame hp hb _ (by simp; omega) (.inr rfl) (hh ▸ ht)
  · obtain ⟨hp, hb, ht⟩ := frameRead_next (h := packHeader p l a m 0 0 0 0) hn
    exact .frame hp hb _ List.length_replicate (.inl rfl) (hh ▸ ht)
  · obtain ⟨hp, hb, hw, ht⟩ := frameWrite_next (h := packHeader p l a m 0 1 0 0) hn
    exact .frame hp hb _ (by simp; omega) (.inr rfl) (hh ▸ ht)

/-- Every step that answers a next state is one of the cases. -/
theorem step_cases {s t : State} (h : step s = .next t) : StepCase s t := by
  unfold step at h
  split at h
  · rename_i hp
    split at h
    · rename_i hr; cases h; exact .reset hp hr rfl
    · unfold fetchCall at h
      split at h
      · rename_i c cs hc
        unfold fetchImage at h
        split at h
        · rename_i i hd
          obtain ⟨hw, -, -⟩ := decode_call_ok hd
          rcases exec_call_next hw h with ⟨out, ht⟩ | ⟨rfl, ho, ht⟩ | ⟨-, ht⟩ | ⟨hr, op, a, m, l, ws, u, ht, hl⟩
          · exact .codec hp out ht
          · exact .construct hp ho ht c cs hc hd
          · exact .stay hp ht
          · exact .accept hp ((State.cmdReady_iff s).mp hr).1 op a m l ws u ht hl
        · cases h
      · cases h; exact .stay hp rfl
  · rename_i hp
    split at h
    · unfold fetchHeader fetchImage at h
      split at h
      · rename_i i hd; exact exec_header_next hd h
      · cases h
    · rename_i hb; cases h; exact .encode hp (by simpa using hb) rfl
  · rename_i hp
    unfold exchangeStep at h
    split at h
    · rename_i hi
      split at h
      · rename_i x hx; exact byteStep_next hp hi hx h
      · cases h
    · split at h
      · rename_i hi; exact finalStep_next hp hi h
      · cases h
  · rename_i hp
    unfold fetchEcho at h
    split at h
    · exact exec_echo_next h
    · cases h
    · cases h

/-! ### What a step does in each position -/

/-- In IDLE a call that decodes is run (the fetch of a call is the oldest one offered). -/
theorem step_call {s : State} {c : Call} {rest : List Call} {i : Instr} (hp : s.phase = .idle)
    (hr : s.resetReq = false) (hc : s.calls = c :: rest) (hd : decode (.call c) = .ok i) : step s = exec i s := by
  simp [step, hp, hr, fetchCall, hc, fetchImage, hd, runFetched]

/-- Step ENCODE is taken before the header is built. -/
theorem step_encode {s : State} (hp : s.phase = .encode) (hb : s.hdrBuilt = false) :
    step s = .next s.buildHeader := by
  simp [step, hp, hb, encodeStep]

/-- Once the header is built, it is run as the wire word it is. -/
theorem step_header {s : State} {i : Instr} (hp : s.phase = .encode) (hb : s.hdrBuilt = true)
    (hd : decode (.sent s.hdr) = .ok i) : step s = exec i s := by
  simp [step, hp, hb, fetchHeader, fetchImage, hd, runFetched]

theorem step_byte {s : State} {x : Byte} (hp : s.phase = .exchange) (hi : s.bidx.toNat < s.frameLen)
    (hx : Memory.read s.tb s.bidx.toNat = some x) : step s = byteStep s x := by
  simp [step, hp, exchangeStep, hi, hx]

theorem step_final {s : State} (hp : s.phase = .exchange) (hi : s.bidx.toNat = s.frameLen) :
    step s = finalStep s := by
  simp [step, hp, exchangeStep, hi]

/-- In VALIDATE the echo found in the buffer is run as the wire word it is. -/
theorem step_echo {s : State} {b0 b1 b2 b3 : Byte} (hp : s.phase = .validate)
    (hr : Memory.readList s.tb 4 4 = some [b0, b1, b2, b3]) :
    step s = exec (decodeReceived (unbe32 b0 b1 b2 b3)) s := by
  have hl := s.frameLen_eq
  have hm : s.memRead Config.echoOff Config.hdrBytes = .ok [b0, b1, b2, b3] :=
    s.memRead_ok 4 4 _ (by omega) hr
  simp [step, hp, fetchEcho, hm, fetchImage, decode, runFetched]

end Sys2Proof.Machine
end

