-- ==== Sys2Proof/Tests/Slice0.lean ====
section
/-! SUPPORT. Small tests: which terms the checks refuse, words written out from the spec's encodings, single steps whose
results stand in spec/95_test_vectors.md (the vector is named in each comment), and a witness for the hypotheses of each
obligation that has some. -/

namespace Sys2Proof.Tests

open Sys2Proof.Machine

/-! ### Helpers -/

/-- The next state of an outcome. -/
def nextOf : Host.Outcome State Fault Refusal → Option State
  | .next s => some s
  | _ => none

/-- What a codec call returns in the state after reset. -/
def returned (i : Instr) : Option CodecOut := (nextOf (exec i State.reset)).map State.codecOut

/-- A constructed, idle engine with calls at its port and answers placed on its line. -/
def ready (calls : List Call) (line : List LineEvent) : State :=
  { State.reset with owned := true, calls := calls, line := line }

/-- A transaction of one register whose header is built: `h` says read or write. -/
def framing (h : Word) : State := (ready [] []).placeHeader h

/-- A read of one register at address 0 in phase EXCHANGE, `n` bytes done. -/
def exchanging (n : BitVec 10) (line : List LineEvent) : State :=
  { ready [] line with
    phase := .exchange, hdr := 0x10000000, hdrBuilt := true, bidx := n,
    tb := Memory.writeList [] 0 [0x10, 0, 0, 0, 0, 0, 0, 0, 0, 0, 0, 0] }

/-- The same transaction in phase VALIDATE, the received frame in the buffer. -/
def validating (op : BitVec 1) (rx : List Byte) : State :=
  { exchanging 12 [] with phase := .validate, op := op, tb := Memory.writeList [] 0 rx }

/-- The result of one step, read from the result port. -/
def resultOf (s : State) : Option (Except Fault CallResult) := (nextOf (step s)).map State.callResult

/-! ### Well-formedness: an ill-formed term for each check -/

theorem test_ill_formed_encode_length : Instr.wellFormed (.encode (2 ^ 32) 0 0 1 0) = false := by decide
theorem test_ill_formed_encode_address : Instr.wellFormed (.encode 0 (2 ^ 32) 0 1 0) = false := by decide
theorem test_ill_formed_encode_memmap : Instr.wellFormed (.encode 0 0 (2 ^ 32) 1 0) = false := by decide
theorem test_well_formed_encode : Instr.wellFormed (.encode 128 0x12345 16 1 0) = true := by decide
theorem test_ill_formed_setParity : Instr.wellFormed (.setParity 0 (2 ^ 32)) = false := by decide
theorem test_ill_formed_setLength : Instr.wellFormed (.setLength 0 (2 ^ 32)) = false := by decide
theorem test_ill_formed_setAddress : Instr.wellFormed (.setAddress 0 (2 ^ 32)) = false := by decide
theorem test_ill_formed_setMemmap : Instr.wellFormed (.setMemmap 0 (2 ^ 32)) = false := by decide
theorem test_ill_formed_setAid : Instr.wellFormed (.setAid 0 (2 ^ 32)) = false := by decide
theorem test_ill_formed_setWnr : Instr.wellFormed (.setWnr 0 (2 ^ 32)) = false := by decide
theorem test_ill_formed_setHdrb : Instr.wellFormed (.setHdrb 0 (2 ^ 32)) = false := by decide
theorem test_ill_formed_setReserved : Instr.wellFormed (.setReserved 0 (2 ^ 32)) = false := by decide
/-! Admission: vectors A1 to A4, A6, A8. -/
theorem test_ill_formed_read_of_none : Instr.wellFormed (.execRead 0 0 0) = false := by decide
theorem test_ill_formed_read_of_129 : Instr.wellFormed (.execRead 0 0 129) = false := by decide
theorem test_ill_formed_write_short : Instr.wellFormed (.execWrite 0 0 2 [1]) = false := by decide
theorem test_ill_formed_write_long : Instr.wellFormed (.execWrite 0 0 1 [1, 2]) = false := by decide
theorem test_well_formed_read_of_128 : Instr.wellFormed (.execRead 0 0 128) = true := by decide
theorem test_well_formed_read_anywhere : Instr.wellFormed (.execRead 0xFFFF 15 1) = true := by decide
theorem test_ill_formed_ctrl_read : Instr.wellFormed (.hdrCtrlRead 0 0 0 0 1) = false := by decide
theorem test_ill_formed_ctrl_write : Instr.wellFormed (.hdrCtrlWrite 0 0 0 0 1) = false := by decide
theorem test_ill_formed_engine_read : Instr.wellFormed (.hdrEngineRead 1 0 0 0) = false := by decide
theorem test_ill_formed_engine_write : Instr.wellFormed (.hdrEngineWrite 0 0 0 0) = false := by decide

/-! ### Decoding: images written out bit by bit from 30_encoding.md rules R64, R77, R78, R79 and R80

The selector byte is 000 and the five bits of R79; a header is {reserved, hdrb, wnr, aid, memmap} {address} {length,
parity}. -/

theorem test_decode_encode :
    decode (.call (.op [0b00000000, 0x00, 0x00, 0x00, 0x05, 0x00, 0x00, 0x12, 0x34, 0x00, 0x00, 0x00, 0x01, 0, 1])) =
      .ok (.encode 5 0x1234 1 0 1) := by decide
theorem test_decode_calcParity :
    decode (.call (.op [0b00000001, 0x10, 0x00, 0x01, 0x00])) = .ok (.calcParity 0x10000100) := by decide
theorem test_decode_toBytes :
    decode (.call (.op [0b00000010, 0x01, 0x02, 0x03, 0x04])) = .ok (.toBytes 0x01020304) := by decide
theorem test_decode_fromBytes :
    decode (.call (.op [0b00000011, 0x50, 0x00, 0x02, 0x01])) = .ok (.fromBytes 0x50 0x00 0x02 0x01) := by decide
theorem test_decode_hdrOk :
    decode (.call (.op [0b00000100, 0xBF, 0xFF, 0xFF, 0xFF])) = .ok (.hdrOk 0xBFFFFFFF) := by decide
theorem test_decode_getParity :
    decode (.call (.op [0b00001000, 0x31, 0x00, 0x10, 0x02])) = .ok (.getParity 0x31001002) := by decide
theorem test_decode_getLength :
    decode (.call (.op [0b00001001, 0x31, 0x00, 0x10, 0x02])) = .ok (.getLength 0x31001002) := by decide
theorem test_decode_getAddress :
    decode (.call (.op [0b00001010, 0x31, 0x00, 0x10, 0x02])) = .ok (.getAddress 0x31001002) := by decide
theorem test_decode_getMemmap :
    decode (.call (.op [0b00001011, 0x31, 0x00, 0x10, 0x02])) = .ok (.getMemmap 0x31001002) := by decide
theorem test_decode_getAid :
    decode (.call (.op [0b00001100, 0x31, 0x00, 0x10, 0x02])) = .ok (.getAid 0x31001002) := by decide
theorem test_decode_getWnr :
    decode (.call (.op [0b00001101, 0x31, 0x00, 0x10, 0x02])) = .ok (.getWnr 0x31001002) := by decide
theorem test_decode_getHdrb :
    decode (.call (.op [0b00001110, 0x31, 0x00, 0x10, 0x02])) = .ok (.getHdrb 0x31001002) := by decide
theorem test_decode_getReserved :
    decode (.call (.op [0b00001111, 0x31, 0x00, 0x10, 0x02])) = .ok (.getReserved 0x31001002) := by decide
theorem test_decode_setParity :
    decode (.call (.op [0b00010000, 0x10, 0x00, 0x00, 0x00, 0x00, 0x01, 0x23, 0x45])) =
      .ok (.setParity 0x10000000 0x12345) := by decide
theorem test_decode_setLength :
    decode (.call (.op [0b00010001, 0x10, 0x00, 0x00, 0x00, 0x00, 0x01, 0x23, 0x45])) =
      .ok (.setLength 0x10000000 0x12345) := by decide
theorem test_decode_setAddress :
    decode (.call (.op [0b00010010, 0x10, 0x00, 0x00, 0x00, 0x00, 0x01, 0x23, 0x45])) =
      .ok (.setAddress 0x10000000 0x12345) := by decide
theorem test_decode_setMemmap :
    decode (.call (.op [0b00010011, 0x10, 0x00, 0x00, 0x00, 0x00, 0x01, 0x23, 0x45])) =
      .ok (.setMemmap 0x10000000 0x12345) := by decide
theorem test_decode_setAid :
    decode (.call (.op [0b00010100, 0x10, 0x00, 0x00, 0x00, 0x00, 0x01, 0x23, 0x45])) =
      .ok (.setAid 0x10000000 0x12345) := by decide
theorem test_decode_setWnr :
    decode (.call (.op [0b00010101, 0x10, 0x00, 0x00, 0x00, 0x00, 0x01, 0x23, 0x45])) =
      .ok (.setWnr 0x10000000 0x12345) := by decide
theorem test_decode_setHdrb :
    decode (.call (.op [0b00010110, 0x10, 0x00, 0x00, 0x00, 0x00, 0x01, 0x23, 0x45])) =
      .ok (.setHdrb 0x10000000 0x12345) := by decide
theorem test_decode_setReserved :
    decode (.call (.op [0b00010111, 0x10, 0x00, 0x00, 0x00, 0x00, 0x01, 0x23, 0x45])) =
      .ok (.setReserved 0x10000000 0x12345) := by decide
theorem test_decode_construct : decode (.call (.op [0b00011000])) = .ok (.construct) := by decide
theorem test_decode_execRead :
    decode (.call (.op [0b00011010, 0x00, 0x02, 0b00000000, 0b00000010])) = .ok (.execRead 0x0002 0 3) := by decide
theorem test_decode_execWrite :
    decode (.call (.op [0b00011011, 0x00, 0x10, 0b00000001, 0b00000001, 0xDE, 0xAD, 0xBE, 0xEF, 0x00, 0x00, 0x00, 0x01])) =
      .ok (.execWrite 0x0010 1 2 [0xDEADBEEF, 0x00000001]) :=
  by decide
theorem test_decode_hdrCtrlRead :
    decode (.sent 0b00000001000000000000000000000000#32) = .ok (.hdrCtrlRead 0 0 0 1 0) := by decide
theorem test_decode_hdrCtrlWrite :
    decode (.sent 0b00100001000100100011010000001010#32) = .ok (.hdrCtrlWrite 0 5 0x1234 1 0) := by decide
theorem test_decode_hdrEngineRead :
    decode (.sent 0b00010000000000000000001000000100#32) = .ok (.hdrEngineRead 0 2 0x0002 0) := by decide
theorem test_decode_hdrEngineWrite :
    decode (.sent 0b00110001000000000001000000000010#32) = .ok (.hdrEngineWrite 0 1 0x0010 1) := by decide
theorem test_decode_echoAccept :
    decode (.received 0b10101111111111111111111111111110#32) = .ok (.echoAccept 0 127 0xFFFF 15 0 1 1) := by decide
theorem test_decode_echoReject :
    decode (.received 0b01010000000000000000001000000001#32) = .ok (.echoReject 1 0 0x0002 0 1 0 0) := by decide
theorem test_decode_getIdver :
    decode (.call (.convenience 0b00010000000000000000000000000000#32)) = .ok .getIdver := by decide
theorem test_decode_getPhyid :
    decode (.call (.convenience 0b00010000000000000000000100000001#32)) = .ok .getPhyid := by decide
theorem test_decode_getCapability :
    decode (.call (.convenience 0b00010000000000000000001000000001#32)) = .ok .getCapability := by decide
/-! Images that are no instruction. -/
theorem test_decode_no_operation : decode (.call (.op [0b00011001])) = .error (.noSuchOperation 0x19) := by decide
theorem test_decode_truncated : decode (.call (.op [0b00011010, 0x00])) = .error .truncatedCall := by decide
theorem test_decode_hdrb_set_outbound :
    decode (.sent 0x40000000) = .error (.notACommandHeader 0x40000000) := by decide
theorem test_decode_no_convenience :
    decode (.call (.convenience 0x10000001)) = .error (.noSuchConvenience 0x10000001) := by decide

/-! ### The host's two interfaces, in the kernel -/

theorem test_table_word_encode : decodeTableWord 8 0x00 = some (.encode 0 0 0 0 0) := by decide
theorem test_table_word_execWrite : decodeTableWord 8 0x1B = some (.execWrite 0 0 1 [0]) := by decide
theorem test_table_word_ctrl_write : decodeTableWord 32 0x20000000 = some (.hdrCtrlWrite 0 0 0 0 0) := by decide
theorem test_table_word_reject : decodeTableWord 32 0x40000000 = some (.echoReject 0 0 0 0 0 0 0) := by decide
theorem test_table_word_getPhyid : decodeTableWord 32 0x10000101 = some .getPhyid := by decide
theorem test_fetch_word_encode :
    (nextOf (step (State.reset.withFetchWord 8 0x00))).map State.codecOut = some (.header 1) := by decide
theorem test_fetch_word_execWrite :
    (nextOf (step (State.reset.withFetchWord 8 0x1B))).map State.phase = some .encode := by decide
theorem test_fetch_word_ctrl_read :
    (nextOf (step (State.reset.withFetchWord 32 0x00000000))).map State.phase = some .exchange := by decide
theorem test_fetch_word_reject :
    (nextOf (step (State.reset.withFetchWord 32 0x40000000))).map State.status = some .headerBadError := by decide

/-! ### The codec (95_test_vectors.md sections 2.1 to 2.5) -/

/-- Vector V16. -/
theorem test_encode_v16 : returned (.encode 5 0x1234 1 0 1) = some (.header 0x2112340A) := by decide
/-- Vector V20: each operand out of range. -/
theorem test_encode_v20 : returned (.encode 0x85 0x1ABCD 0x1F 1 0) = some (.header 0x1FABCD0A) := by decide
/-- Vector V23. -/
theorem test_calcParity_v23 : returned (.calcParity 0xFFFFFFFF) = some (.header 0xFFFFFFFE) := by decide
/-- Vector V27: `reserved` is counted. -/
theorem test_calcParity_v27 : returned (.calcParity 0x80000000) = some (.header 0x80000000) := by decide
/-- Vector V33 (refutes X5). -/
theorem test_toBytes_v33 : returned (.toBytes 0x01020304) = some (.bytes [0x01, 0x02, 0x03, 0x04]) := by decide
/-- Vector V35. -/
theorem test_fromBytes_v35 : returned (.fromBytes 0x50 0x00 0x02 0x01) = some (.header 0x50000201) := by decide
/-- Vector V45. -/
theorem test_hdrOk_v45 : returned (.hdrOk 0xBFFFFFFF) = some (.bool true) := by decide
/-- Vector V44. -/
theorem test_hdrOk_v44 : returned (.hdrOk 0x40000000) = some (.bool false) := by decide
/-- Vector V39. -/
theorem test_getParity_v39 : returned (.getParity 0x50000201) = some (.bit 1) := by decide
/-- Vector V46. -/
theorem test_getLength_v46 : returned (.getLength 0x2112340A) = some (.length 5) := by decide
/-- Vector V46. -/
theorem test_getAddress_v46 : returned (.getAddress 0x2112340A) = some (.address 0x1234) := by decide
/-- Vector V40. -/
theorem test_getMemmap_v40 : returned (.getMemmap 0x31001002) = some (.memmap 1) := by decide
/-- Vector V46. -/
theorem test_getAid_v46 : returned (.getAid 0x2112340A) = some (.bit 0) := by decide
/-- Vector V46. -/
theorem test_getWnr_v46 : returned (.getWnr 0x2112340A) = some (.bit 1) := by decide
/-- Vector V45. -/
theorem test_getHdrb_v45 : returned (.getHdrb 0xBFFFFFFF) = some (.bit 0) := by decide
/-- Vector V45. -/
theorem test_getReserved_v45 : returned (.getReserved 0xBFFFFFFF) = some (.bit 1) := by decide
/-- Vector V54. -/
theorem test_setParity_v54 : returned (.setParity 0x10000100 1) = some (.header 0x10000101) := by decide
/-- Vector V52. -/
theorem test_setLength_v52 : returned (.setLength 0x10000000 128) = some (.header 0x10000000) := by decide
/-- Vector V57. -/
theorem test_setAddress_v57 : returned (.setAddress 0x10000000 0x12345) = some (.header 0x10234500) := by decide
/-- Vector V53. -/
theorem test_setMemmap_v53 : returned (.setMemmap 0x10000000 1) = some (.header 0x11000000) := by decide
/-- Vector V56. -/
theorem test_setAid_v56 : returned (.setAid 0x00000000 1) = some (.header 0x10000000) := by decide
/-- Vector V50. -/
theorem test_setWnr_v50 : returned (.setWnr 0x10000000 1) = some (.header 0x30000000) := by decide
/-- Vector V51. -/
theorem test_setHdrb_v51 : returned (.setHdrb 0x10000201 1) = some (.header 0x50000201) := by decide
/-- Vector V55. -/
theorem test_setReserved_v55 : returned (.setReserved 0x00000001 1) = some (.header 0x80000001) := by decide
/-- Vector V47 (refutes X4). -/
theorem test_setAddress_breaks_parity_v47 : oddParity (insField .address 0x10000000 0x0002) = false := by decide

/-! ### The engine (sections 2.6 to 2.8) -/

/-- 41_engine.md rule R124, its example. -/
theorem test_construct :
    (nextOf (exec .construct State.reset)).map (fun t => (t.cmdReady, t.rspDone)) = some (true, false) := by decide
/-- Frame F4: the latches. -/
theorem test_execRead_accept :
    (nextOf (exec (.execRead 0x0002 0 3) (ready [] []))).map (fun t => (t.op, t.addr, t.len)) =
    some (0, 0x0002, 2) := by decide
/-- Frame F4: the header. -/
theorem test_execRead_header_f4 :
    (nextOf (step { ready [] [] with phase := .encode, addr := 0x0002, len := 2 })).map State.hdr =
    some 0x10000204 := by decide
/-- Frame F5: the latches. -/
theorem test_execWrite_accept :
    (nextOf (exec (.execWrite 0x0010 1 2 [0xDEADBEEF, 1]) (ready [] []))).map (fun t => (t.op, t.len, t.wdata)) =
    some (1, 1, [0xDEADBEEF, 1]) := by decide
/-- Frame F5: the bytes (refutes X7). -/
theorem test_hdrEngineWrite_frame_f5 :
    (nextOf (step { framing 0x31001002 with wdata := [0xDEADBEEF, 1] })).bind (fun t => Memory.readList t.tb 0 16) =
    some [0x31, 0x00, 0x10, 0x02, 0, 0, 0, 0, 0xDE, 0xAD, 0xBE, 0xEF, 0, 0, 0, 1] := by decide
/-- Frame F7. -/
theorem test_hdrEngineRead_frame_f7 :
    (nextOf (step (framing 0x11800000))).bind (fun t => Memory.readList t.tb 0 12) =
    some [0x11, 0x80, 0x00, 0x00, 0, 0, 0, 0, 0, 0, 0, 0] := by decide
/-- A header of vector V4 (`aid = 0`), framed by rule R73. -/
theorem test_hdrCtrlRead_frame :
    (nextOf (step (framing 0x00000001))).bind (fun t => Memory.readList t.tb 0 8) =
    some [0x00, 0x00, 0x00, 0x01, 0, 0, 0, 0] := by decide
/-- A header of vector V5 (`aid = 0`) with the payload of F9, framed by rule R73. -/
theorem test_hdrCtrlWrite_frame :
    (nextOf (step { framing 0x20000000 with wdata := [0x0000A5A5] })).bind (fun t => Memory.readList t.tb 0 12) =
    some [0x20, 0x00, 0x00, 0x00, 0, 0, 0, 0, 0x00, 0x00, 0xA5, 0xA5] := by decide
/-- 30_encoding.md rule R88. -/
theorem test_getIdver_accept :
    (nextOf (exec .getIdver (ready [] []))).map (fun t => (t.op, t.addr, t.mm, t.len)) =
    some (0, 0x0000, 0, 0) := by decide
/-- 30_encoding.md rule R88. -/
theorem test_getPhyid_accept :
    (nextOf (exec .getPhyid (ready [] []))).map (fun t => (t.op, t.addr, t.mm, t.len)) =
    some (0, 0x0001, 0, 0) := by decide
/-- 30_encoding.md rule R88. -/
theorem test_getCapability_accept :
    (nextOf (exec .getCapability (ready [] []))).map (fun t => (t.op, t.addr, t.mm, t.len)) =
    some (0, 0x0002, 0, 0) := by decide
/-- Vector E1 (scenario S6). -/
theorem test_getIdver_e1 :
    resultOf { validating 0 [0xAA, 0xAA, 0xAA, 0xAA, 0x10, 0x00, 0x00, 0x00, 0x01, 0x23, 0x45, 0x67] with unwrap := true } =
    some (.ok (.word 0x01234567)) :=
  by decide
/-- Vector E7 (refutes X1). -/
theorem test_echoAccept_e7 :
    resultOf (validating 0 [0xAA, 0xAA, 0xAA, 0xAA, 0x2F, 0xFF, 0xFF, 0xFE, 0x00, 0x00, 0x00, 0x05]) =
    some (.ok (.words [5])) := by decide
/-- Vector E8, with one word. -/
theorem test_echoAccept_e8 :
    resultOf (validating 1 [0xAA, 0xAA, 0xAA, 0xAA, 0x31, 0x00, 0x10, 0x02, 0xAA, 0xAA, 0xAA, 0xAA]) =
    some (.ok (.unit)) := by decide
/-- Vector E2 (scenario S7). -/
theorem test_echoReject_e2 :
    resultOf { validating 0 [0xAA, 0xAA, 0xAA, 0xAA, 0x50, 0x00, 0x02, 0x01, 0xCA, 0xFE, 0xF0, 0x0D] with unwrap := true } =
    some (.ok (.err .headerBadError)) :=
  by decide
/-- Vector E9, with one word. -/
theorem test_echoReject_e9 :
    resultOf (validating 1 [0xAA, 0xAA, 0xAA, 0xAA, 0x71, 0x00, 0x10, 0x02, 0xAA, 0xAA, 0xAA, 0xAA]) =
    some (.ok (.err .headerBadError)) := by decide
/-- Vector E10. -/
theorem test_fail_e10 : resultOf (exchanging 0 [.fail]) = some (.ok (.err .ioError)) := by decide
/-- Vector E11 (refutes X3): the rejecting echo is never looked at. -/
theorem test_fail_e11 :
    resultOf { exchanging 12 [.fail] with
      tb := Memory.writeList [] 0 [0xAA, 0xAA, 0xAA, 0xAA, 0x50, 0x00, 0x02, 0x01, 0x00, 0x00, 0x00, 0x00] } =
    some (.ok (.err .ioError)) := by decide
/-- 41_engine.md rule R134: the byte sent is the one framed, then it is overwritten. -/
theorem test_byte_exchange :
    (nextOf (step (exchanging 0 [.go 0xAB]))).map (fun t => (t.sent, Memory.read t.tb 0, t.bidx)) =
    some ([0x10], some 0xAB, 1) := by decide
/-- 41_engine.md rule R134: the byte was put on the line before the failure of its byte time. -/
theorem test_byte_failure :
    (nextOf (step (exchanging 0 [.fail]))).map (fun t => (t.sent, t.status, t.bidx)) =
    some ([0x10], .ioError, 0) := by decide

/-! ### Witnesses: for each obligation with hypotheses, a state and operands that meet them -/

theorem test_witness_SettersDoNotMaintainParity :
    Field.wnr ≠ .parity ∧ insField .wnr (calcParity 0) 1 ≠ calcParity 0 := by decide
/-- 40_codec.md rule R121, its second example: `address` from 0x0000 to 0x0003. -/
theorem test_witness_SettersDoNotMaintainParity_by_accident :
    Field.address ≠ .parity ∧ insField .address (calcParity 0) 3 ≠ calcParity 0 ∧
    popcount ((insField .address (calcParity 0) 3 ^^^ calcParity 0) &&& fieldMask .address) % 2 = 0 := by decide
theorem test_witness_CodecReadsAndWritesNoState : isCodec (.hdrOk 0xFFFFFFFF) = true := by decide
theorem test_witness_CodecFrame : isCodec (.setReserved 0x80000000 0) = true := by decide
theorem test_witness_ConstructTakesTheTransport : State.reset.owned = false := by decide
theorem test_witness_ConstructFrame : exec .construct State.reset = .next State.reset.takeTransport := rfl
theorem test_witness_SecondConstructIsRefused : (ready [] []).owned = true := by decide
theorem test_witness_CommandIsAccepted_read :
    (ready [] []).owned = true ∧ (ready [] []).phase = .idle ∧ 1 ≤ 128 ∧ 128 ≤ 128 := by decide
theorem test_witness_CommandIsAccepted_write :
    (ready [] []).owned = true ∧ (ready [] []).phase = .idle ∧ 1 ≤ 1 ∧ 1 ≤ 128 ∧ [(7 : Word)].length = 1 := by decide
theorem test_witness_AcceptFrame :
    commandOf .getPhyid = some ⟨0, 0x0001, 0, 1, []⟩ ∧ (ready [] []).owned = true ∧
    (ready [] []).phase = .idle ∧ (nextOf (exec .getPhyid (ready [] []))).isSome := by decide
theorem test_witness_CommandWaitsWhileNotReady_unowned :
    Command.admitted ⟨0, 0, 0, 128, []⟩ = true ∧ State.reset.owned = false := by decide
theorem test_witness_CommandWaitsWhileNotReady_busy :
    Command.admitted ⟨1, 0, 0, 1, [0]⟩ = true ∧ (exchanging 0 []).phase ≠ .idle := by decide
theorem test_witness_InadmissibleCommandIsRefused :
    (0 < 1 ∨ 128 < 0) ∧ (129 < 1 ∨ 128 < 129) ∧ (2 < 1 ∨ 128 < 2 ∨ [(1 : Word)].length ≠ 2) := by decide
theorem test_witness_ConvenienceReadsAreReads : (ready [] []).owned = true ∧ (ready [] []).phase = .idle := by decide
theorem test_witness_EncodeStepBuildsTheHeader :
    ({ ready [] [] with phase := .encode } : State).phase = .encode ∧
    ({ ready [] [] with phase := .encode } : State).hdrBuilt = false := by decide
/-- The header of V6. -/
theorem test_witness_EngineHeadersAreInTheirClass_write :
    (nextOf (step { ready [] [] with phase := .encode, op := 1 })).map State.hdr = some 0x30000001 := by decide
theorem test_witness_EngineHeadersAreInTheirClass_convenience :
    ((nextOf (exec .getCapability (ready [] []))).bind (fun t => nextOf (step t))).map State.hdr = some 0x10000201 :=
  by decide
theorem test_witness_HeadersAreFramed_engine_read :
    (framing 0x10000000).phase = .encode ∧ (framing 0x10000000).hdrBuilt = true ∧
    packHeader 0 0 0 0 1 0 0 0 = 0x10000000 := by decide
theorem test_witness_HeadersAreFramed_ctrl_write :
    (framing 0x20000000).phase = .encode ∧
    (framing 0x20000000).hdrBuilt = true ∧
    (framing 0x20000000).wdata.length = (framing 0x20000000).count ∧
    packHeader 0 0 0 0 0 1 0 0 = 0x20000000 := by decide
theorem test_witness_WireWordsStopOffSequence_phase :
    State.reset.phase ≠ .encode ∧ State.reset.phase ≠ .validate := by decide
theorem test_witness_WireWordsStopOffSequence_not_built :
    ({ ready [] [] with phase := .encode } : State).hdrBuilt = false := by decide
theorem test_witness_HeadersAreFramed_ctrl_read :
    (framing 0x00000001).phase = .encode ∧ (framing 0x00000001).hdrBuilt = true ∧
    packHeader 1 0 0 0 0 0 0 0 = 0x00000001 := by decide
theorem test_witness_HeadersAreFramed_engine_write :
    (framing 0x30000001).phase = .encode ∧
    (framing 0x30000001).hdrBuilt = true ∧
    (framing 0x30000001).wdata.length = (framing 0x30000001).count ∧
    packHeader 1 0 0 0 1 1 0 0 = 0x30000001 := by decide
theorem test_witness_AcceptedEchoCompletes_read :
    (validating 0 [0, 0, 0, 0, 0x10, 0, 0, 0, 1, 2, 3, 4]).phase = .validate ∧
    (validating 0 [0, 0, 0, 0, 0x10, 0, 0, 0, 1, 2, 3, 4]).op = 0 ∧
    ∀ a < 12, (Memory.read (validating 0 [0, 0, 0, 0, 0x10, 0, 0, 0, 1, 2, 3, 4]).tb a).isSome := by decide
theorem test_witness_AcceptedEchoCompletes_write :
    (validating 1 []).phase = .validate ∧ (validating 1 []).op = 1 := by decide
theorem test_witness_RejectedEchoRaisesHeaderBad : (validating 0 []).phase = .validate := by decide
theorem test_witness_ExchangeGoesByteByByte_first :
    (exchanging 0 [.go 1]).phase = .exchange ∧ (exchanging 0 [.go 1]).bidx.toNat < (exchanging 0 [.go 1]).frameLen ∧
    Memory.read (exchanging 0 [.go 1]).tb 0 = some 0x10 ∧ (exchanging 0 [.go 1]).line = .go 1 :: [] := by decide
theorem test_witness_ExchangeGoesByteByByte_last_fail :
    (exchanging 11 [.fail]).bidx.toNat < (exchanging 11 [.fail]).frameLen ∧
    Memory.read (exchanging 11 [.fail]).tb 11 = some 0 ∧ (exchanging 11 [.fail]).line = .fail :: [] := by decide
theorem test_witness_SilentTransportBlocksTheEngine_last :
    (exchanging 11 [.wait]).bidx.toNat < (exchanging 11 [.wait]).frameLen ∧
    Memory.read (exchanging 11 [.wait]).tb 11 = some 0 ∧ (exchanging 11 [.wait]).line = .wait :: [] := by decide
theorem test_witness_ExchangeGoesByteByByte_final_go :
    (exchanging 12 [.go 0]).phase = .exchange ∧
    (exchanging 12 [.go 0]).bidx.toNat = (exchanging 12 [.go 0]).frameLen ∧
    (exchanging 12 [.go 0]).line = .go 0 :: [] := by decide
theorem test_witness_ExchangeGoesByteByByte_final_fail :
    (exchanging 12 [.fail]).bidx.toNat = (exchanging 12 [.fail]).frameLen ∧
    (exchanging 12 [.fail]).line = .fail :: [] := by decide
theorem test_witness_SilentTransportBlocksTheEngine_final :
    (exchanging 12 [.wait]).bidx.toNat = (exchanging 12 [.wait]).frameLen ∧
    (exchanging 12 [.wait]).line = .wait :: [] := by decide
theorem test_witness_UnplacedAnswersAreDrawn_byte :
    (exchanging 11 []).phase = .exchange ∧
    (exchanging 11 []).line = [] ∧
    (exchanging 11 []).bidx.toNat < (exchanging 11 []).frameLen ∧
    Memory.read (exchanging 11 []).tb 11 = some 0 := by decide
theorem test_witness_UnplacedAnswersAreDrawn_final :
    (exchanging 12 []).line = [] ∧ (exchanging 12 []).bidx.toNat = (exchanging 12 []).frameLen := by decide
theorem test_witness_SilentTransportBlocksTheEngine :
    (exchanging 12 (List.replicate 3 .wait)).bidx.toNat ≤ (exchanging 12 (List.replicate 3 .wait)).frameLen ∧
    (∀ a < 12, (Memory.read (exchanging 12 (List.replicate 3 .wait)).tb a).isSome) ∧
    (exchanging 12 (List.replicate 3 .wait)).line = List.replicate 3 .wait ++ [] := by decide
theorem test_witness_StepRunsTheDecodedInstruction_call :
    (ready [.op [0x18]] []).calls = .op [0x18] :: [] ∧ decode (.call (.op [0x18])) = .ok .construct ∧
    (ready [.op [0x18]] []).phase = .idle ∧ (ready [.op [0x18]] []).resetReq = false := by decide
theorem test_witness_StepRunsTheDecodedInstruction_header :
    (framing 0x10000000).phase = .encode ∧ (framing 0x10000000).hdrBuilt = true ∧
    decode (.sent (framing 0x10000000).hdr) = .ok (.hdrEngineRead 0 0 0 0) := by decide
theorem test_witness_StepRunsTheDecodedInstruction_echo :
    Memory.readList (validating 0 [0, 0, 0, 0, 0x10, 0, 0, 0, 1, 2, 3, 4]).tb 4 4 = some [0x10, 0, 0, 0] ∧
    decode (.received (0x10#8 ++ 0#8 ++ 0#8 ++ 0#8)) = .ok (.echoAccept 0 0 0 0 1 0 0) := by decide
theorem test_witness_IdleEngineWaits :
    State.reset.phase = .idle ∧ State.reset.resetReq = false ∧ State.reset.calls = [] := by decide

/-- The calls and answers of vector E1, with waits before the first and third answers. -/
def offered : State :=
  ready [.convenience 0x10000000] (delayed [2, 0, 1] (Answer.ok [0, 0, 0, 0, 0x10, 0, 0, 0, 1, 2, 3, 4]).events ++ [.fail])

theorem test_witness_TransactionAgreesWithExecute :
    offered.Offers .getIdver [] ∧
    commandOf .getIdver = some ⟨0, 0x0000, 0, 1, []⟩ ∧
    Command.admitted ⟨0, 0x0000, 0, 1, []⟩ = true ∧
    (Answer.ok [0, 0, 0, 0, 0x10, 0, 0, 0, 1, 2, 3, 4]).fits (Command.length ⟨0, 0x0000, 0, 1, []⟩) ∧
    offered.line = delayed [2, 0, 1] (Answer.ok [0, 0, 0, 0, 0x10, 0, 0, 0, 1, 2, 3, 4]).events ++ [.fail] := 
  ⟨⟨rfl, rfl, rfl, _, rfl, rfl⟩, rfl, rfl, rfl, rfl⟩
theorem test_witness_TransactionAgreesWithExecute_fail :
    (Answer.fail [1, 2]).fits (Command.length ⟨1, 0x0010, 1, 2, [1, 2]⟩) ∧
    Command.admitted ⟨1, 0x0010, 1, 2, [1, 2]⟩ = true := ⟨by unfold Answer.fits; decide, by decide⟩
theorem test_witness_ByteExchangeEqualsAtomicExchange :
    (exchanging 0 (delayed [] (Answer.ok [0, 0, 0, 0, 0x10, 0, 0, 0, 1, 2, 3, 4]).events)).bidx = 0 ∧
    (∀ a < 12, (Memory.read (exchanging 0 []).tb a).isSome) ∧
    (Answer.ok [0, 0, 0, 0, 0x10, 0, 0, 0, 1, 2, 3, 4]).fits (exchanging 0 []).frameLen := 
  ⟨rfl, by decide, rfl⟩
theorem test_witness_TransactionsAreDetermined_result :
    offered.Offers .getIdver [] ∧
    (ready [.convenience 0x10000101] (delayed [] (Answer.ok [0, 0, 0, 0, 0x10, 0, 0, 0, 1, 2, 3, 4]).events)).Offers .getPhyid [] ∧
    isConvenience .getIdver = isConvenience .getPhyid := 
  ⟨⟨rfl, rfl, rfl, _, rfl, rfl⟩, ⟨rfl, rfl, rfl, _, rfl, rfl⟩, rfl⟩
theorem test_witness_EchoIsValidated_reject :
    (validating 0 [0, 0, 0, 0, 0x50, 0, 2, 1, 0, 0, 0, 0]).phase = .validate ∧
    (∀ a < 12, (Memory.read (validating 0 [0, 0, 0, 0, 0x50, 0, 2, 1, 0, 0, 0, 0]).tb a).isSome) ∧
    (0x50 : Byte).getLsbD 6 = true ∧ (0x10 : Byte).getLsbD 6 = false := by decide
theorem test_witness_StatusPortShowsItsCode :
    ({ ready [] [] with done := true, status := .headerBadError } : State).rspStatus = .ok 2 := by decide
theorem test_witness_TransactionsAreDetermined_bytes :
    (Answer.ok [0, 0, 0, 0, 0x40, 0, 0, 0, 0, 0, 0, 0]).fits (Command.length ⟨0, 0x0000, 0, 1, []⟩) ∧
    (ready [.convenience 0x10000000] (delayed [] (Answer.ok [0, 0, 0, 0, 0x40, 0, 0, 0, 0, 0, 0, 0]).events)).Offers
      .getIdver [] := ⟨rfl, rfl, rfl, rfl, _, rfl, rfl⟩
/-- A failure in the first byte time and one in the final step. -/
theorem test_witness_TransactionsAreDetermined_failures :
    (Answer.fail []).fits 12 ∧ (Answer.fail [1, 2, 3, 4, 5, 6, 7, 8, 9, 10, 11, 12]).fits 12 ∧
    (Answer.fail []).sentCount 12 = 1 ∧ (Answer.fail [1, 2, 3, 4, 5, 6, 7, 8, 9, 10, 11, 12]).sentCount 12 = 12 := by
  unfold Answer.fits; decide
theorem test_witness_EncodeThenDecode_read : Instr.wellFormed (.execRead 0xFFFF 15 128) = true := by decide
theorem test_witness_EncodeThenDecode_engine : Instr.wellFormed (.hdrEngineWrite 0 1 0x0010 1) = true := by decide
theorem test_witness_DecodeThenEncodeWireWords :
    decode (.sent 0x0FFFFFFE) = .ok (.hdrCtrlRead 0 127 0xFFFF 15 0) ∧
    decode (.received 0xFFFFFFFF) = .ok (.echoReject 1 127 0xFFFF 15 1 1 1) := by decide
theorem test_witness_ReservedSelectorsAreRefused :
    ((0xE5 : Byte).setWidth 5).toNat ∈ [0x05, 0x06, 0x07, 0x19, 0x1C, 0x1D, 0x1E, 0x1F] ∧
    ((0x1B : Byte).setWidth 5).toNat ∉ [0x05, 0x06, 0x07, 0x19, 0x1C, 0x1D, 0x1E, 0x1F] := by decide
theorem test_witness_ResetInIdle :
    ({ ready [] [] with resetReq := true } : State).phase = .idle ∧
    ({ ready [] [] with resetReq := true } : State).resetReq = true := by decide
theorem test_witness_NoResetWhileInFlight :
    (exchanging 0 [.go 1]).phase ≠ .idle ∧ (nextOf (step (exchanging 0 [.go 1]))).isSome := by decide

/-- A transaction in flight meets the invariant, and so does an idle engine with a call that names no operation. -/
theorem test_witness_inv_in_flight : (exchanging 3 [.go 1]).Inv := by constructor <;> decide

theorem test_witness_inv_refusal : (ready [.op [0x05]] []).Inv := by constructor <;> decide

/-- An engine that holds the result of a read meets the invariant. -/
theorem test_witness_inv_result :
    ({ ready [] [] with done := true, rdata := [5] } : State).Inv := by constructor <;> decide

theorem test_result_port :
    ({ ready [] [] with done := true, rdata := [5] } : State).rspRdata 0 = .ok 5 ∧
    ({ ready [] [] with done := true, rdata := [5] } : State).rspRdata 1 = .error .noValue ∧
    ({ ready [] [] with rdata := [5] } : State).rspStatus = .error .noValue := by decide

theorem test_witness_StepKeepsInv : (nextOf (step (exchanging 3 [.go 1]))).isSome := by decide
theorem test_witness_RefusalsComeFromTheCaller :
    step (ready [.op [0x05]] []) = .refused (.noSuchOperation 0x05) := rfl
theorem test_witness_PhaseMovesAlongItsEdges :
    (nextOf (step (framing 0x10000000))).map State.phase = some .exchange := by decide
theorem test_witness_OwnershipIsNeverReleased :
    (nextOf (step { State.reset with calls := [.op [0x18]] })).map State.owned = some true ∧
    State.reset.resetReq = false := by decide
theorem test_witness_CommandIsStableInFlight :
    (exchanging 0 [.wait]).phase ≠ .idle ∧ (nextOf (step (exchanging 0 [.wait]))).isSome := by decide
theorem test_witness_ResultAppearsInOneStep_in_flight :
    (exchanging 12 [.fail]).phase ≠ .idle ∧
    (nextOf (step (exchanging 12 [.fail]))).map State.done = some true := by decide
theorem test_witness_ResultAppearsInOneStep_idle :
    (ready [.op [0x18]] []).resetReq = false ∧
    (nextOf (step (ready [.convenience 0x10000000] []))).isSome := by decide
theorem test_witness_BusIsUsedInExchangeOnly :
    (nextOf (step (exchanging 3 [.go 1]))).map State.sent = some [0] := by decide
theorem test_witness_BusIsUsedInExchangeOnly_failure :
    (nextOf (step (exchanging 11 [.fail]))).map (fun t => (t.sent, t.phase, t.status)) = some ([0], .idle, .ioError) :=
  by decide
theorem test_witness_ErrorEndingDeliversNoData :
    (nextOf (step (exchanging 3 [.fail]))).map (fun t => (t.phase, t.status)) = some (.idle, .ioError) := by decide
theorem test_witness_BufferAccessStaysInsideTheFrame_inside :
    8 + ([1, 2, 3, 4] : List Byte).length ≤ (exchanging 0 []).frameLen := by decide
theorem test_witness_BufferAccessStaysInsideTheFrame_outside :
    (exchanging 0 []).frameLen < 9 + ([1, 2, 3, 4] : List Byte).length := by decide

end Sys2Proof.Tests
end

