-- ==== Sys2Proof/Proofs/Scope.lean ====
section
/-! PROOFS. The statement about 00_scope.md: the transport's answers, free unless placed from outside (rule R9, log
entry 3). -/

namespace Sys2Proof.Machine

/-! ### A free draw beside the same answer placed -/

/-- Taking the free draw leaves what taking any placed last answer leaves, and counts one draw more. -/
theorem State.useAnswer_eq_placed {s : State} (h : s.line = []) (e : LineEvent) :
    s.useAnswer = { ({ s with line := [e] } : State).useAnswer with draws := s.draws + 1 } := by
  rw [State.useAnswer_nil h, State.useAnswer_cons (s := { s with line := [e] }) rfl, ← h]

theorem byteStep_drawn {s : State} (h : s.line = []) (x : Byte) :
    ∃ t, byteStep { s with line := [Config.lineDraw s.draws (s.sent ++ [x])] } x = .next t ∧
      byteStep s x = .next { t with draws := s.draws + 1 } := by
  rw [byteStep, byteStep, State.nextAnswer_nil h, State.nextAnswer_cons rfl]
  generalize Config.lineDraw s.draws (s.sent ++ [x]) = e
  rw [State.useAnswer_eq_placed h e]
  cases e with
  | wait => exact ⟨_, rfl, rfl⟩
  | fail => exact ⟨_, rfl, rfl⟩
  | go r => exact ⟨_, rfl, rfl⟩

theorem finalStep_drawn {s : State} (h : s.line = []) :
    ∃ t, finalStep { s with line := [Config.lineDraw s.draws s.sent] } = .next t ∧
      finalStep s = .next { t with draws := s.draws + 1 } := by
  rw [finalStep, finalStep, State.nextAnswer_nil h, State.nextAnswer_cons rfl]
  generalize Config.lineDraw s.draws s.sent = e
  rw [State.useAnswer_eq_placed h e]
  cases e with
  | wait => exact ⟨_, rfl, rfl⟩
  | fail => exact ⟨_, rfl, rfl⟩
  | go r => exact ⟨_, rfl, rfl⟩

/-- Settles O31: the step of an exchange is the byte step or the final step, with the draw placed and without, and each
of these asks for one answer only. -/
theorem unplacedAnswersAreDrawn : Obligations.UnplacedAnswersAreDrawn := by
  intro s x hp hl
  constructor
  · rintro ⟨hi, hx⟩
    rw [step_byte hp hi hx,
      step_byte (s := { s with line := [Config.lineDraw s.draws (s.sent ++ [x])] }) hp hi hx]
    exact byteStep_drawn hl x
  · intro hi
    rw [step_final hp hi, step_final (s := { s with line := [Config.lineDraw s.draws s.sent] }) hp hi]
    exact finalStep_drawn hl

end Sys2Proof.Machine
end

