-- ==== Sys2Proof/Proofs/Invariant.lean ====
section
/-! PROOFS. The invariant of one engine (10_state.md, 20_memory.md): each named operation of the state keeps it
where it is enabled, hence every step does; it holds after reset; and it says when the result port answers. -/

namespace Sys2Proof.Machine

/-! ### States that meet the invariant -/

section
variable {s : State}

/-- In IDLE only the result and the empty buffer matter. -/
theorem State.Inv.of_idle (hp : s.phase = .idle) (htb : s.tb = []) (hown : s.done = true → s.owned = true)
    (hread : s.done = true → s.status = .ok → s.op = 0 → s.rdata.length = s.count)
    (hnone : ¬(s.done = true ∧ s.status = .ok ∧ s.op = 0) → s.rdata = []) : s.Inv where
  bufferWf := by simp [htb]
  bufferInside := by simp [htb]
  bufferEmpty _ := htb
  bufferFull := by simp [hp]
  busyOwned := by simp [hp]
  doneOwned := hown
  header := by simp [hp]
  headerBuilt := by simp [hp]
  payload := by simp [hp]
  index := by simp [hp]
  resultRead := hread
  resultNone := hnone

/-- An engine with no result holds no word. -/
theorem State.Inv.rdata_of_not_done (h : s.Inv) (hd : s.done = false) : s.rdata = [] := h.resultNone (by simp [hd])

end

/-- Settles O46: nothing is in flight after reset, no result is present and no byte of the buffer holds a value. -/
theorem resetMeetsInv : Obligations.ResetMeetsInv :=
  .of_idle rfl rfl nofun nofun (fun _ => rfl)

/-! ### What each operation of the state keeps -/

section
variable {s : State}

theorem State.Inv.hwReset : s.hwReset.Inv := { resetMeetsInv with }

theorem State.Inv.answer (h : s.Inv) (out : CodecOut) : (s.answer out).Inv := { h with }

theorem State.Inv.useAnswer (h : s.Inv) : s.useAnswer.Inv := by
  unfold State.useAnswer
  split
  · exact { h with }
  · exact { h with }

theorem State.Inv.putOnLine (h : s.Inv) (x : Byte) : (s.putOnLine x).Inv := { h with }

theorem State.Inv.latchEcho (h : s.Inv) (w : Word) : (s.latchEcho w).Inv := { h with }

/-- CONSTRUCT finds no result, since a result is present only in an engine that was constructed. -/
theorem State.Inv.takeTransport (h : s.Inv) (hp : s.phase = .idle) (ho : s.owned = false) : s.takeTransport.Inv :=
  have hd : s.done = false := Bool.eq_false_iff.mpr fun hd => by simp [h.doneOwned hd] at ho
  .of_idle rfl (h.bufferEmpty (.inl hp)) nofun nofun (fun _ => h.rdata_of_not_done hd)

/-- ACCEPT latches a command whose header is not built yet and whose buffer is empty. -/
theorem State.Inv.accept (h : s.Inv) (hp : s.phase = .idle) (ho : s.owned = true) {op : BitVec 1} (a : BitVec 16)
    (m : BitVec 4) {l : BitVec 7} {ws : List Word} (u : Bool)
    (hw : op = 0 ∧ ws = [] ∨ op = 1 ∧ ws.length = countOfLen l) : (s.accept op a m l ws u).Inv :=
  have htb : s.tb = [] := h.bufferEmpty (.inl hp)
  { h with
    bufferInside := by simp [htb]
    bufferEmpty := fun _ => htb
    bufferFull := by simp
    busyOwned := fun _ => ⟨ho, rfl⟩
    doneOwned := nofun
    header := by simp
    headerBuilt := by simp
    payload := fun _ h1 => by
      rcases hw with ⟨h0, -⟩ | ⟨-, hl⟩
      · simp [h0] at h1
      · exact hl
    index := by simp
    resultRead := nofun
    resultNone := fun _ => rfl }

theorem State.Inv.buildHeader (h : s.Inv) : s.buildHeader.Inv :=
  { h with header := fun _ _ => rfl, headerBuilt := fun _ => rfl }

/-- FRAME fills exactly `[0, L)` (20_memory.md rule R41), and BIDX is 0. -/
theorem State.Inv.frame (h : s.Inv) (hp : s.phase = .encode) (hb : s.hdrBuilt = true) (w : Word)
    {payload : List Word} (hl : payload.length = s.count) :
    (s.withBuffer (Memory.writeList [] 0 (frameBytes w payload))).enterExchange.Inv :=
  have hbusy : s.phase ≠ .idle := by simp [hp]
  have hlen : (frameBytes w payload).length = s.frameLen := by rw [frameBytes_length, hl, s.frameLen_eq]
  { h with
    bufferWf := Memory.writeList_wf _ _ _ .nil
    bufferInside := fun c hc => by
      rcases Memory.mem_writeList hc with hc | hc
      · rw [Nat.zero_add, hlen] at hc; exact hc.2
      · cases hc
    bufferEmpty := by simp
    bufferFull := fun _ k hk => by
      change k < s.frameLen at hk
      simp [Memory.read_writeList, hlen, hk]
    busyOwned := fun _ => h.busyOwned hbusy
    header := fun _ => h.header hbusy
    headerBuilt := fun _ => hb
    payload := fun _ => h.payload hbusy
    index := fun _ => Nat.zero_le _ }

/-- Inside the frame BIDX advances without wrapping: its ten bits hold every value up to L. -/
theorem State.bidx_succ_toNat (hi : s.bidx.toNat < s.frameLen) : (s.bidx + 1).toNat = s.bidx.toNat + 1 := by
  have hmax : s.frameLen ≤ 520 := frameLength_le s.len
  bv_omega

/-- A received byte overwrites one of the frame, and BIDX stays in 0 to L. -/
theorem State.Inv.exchangeByte (h : s.Inv) (hp : s.phase = .exchange) (hi : s.bidx.toNat < s.frameLen) (r : Byte) :
    (s.exchangeByte r).Inv :=
  { h with
    bufferWf := Memory.write_wf _ _ _ h.bufferWf
    bufferInside := fun c hc => by
      rcases Memory.mem_write hc with rfl | hc
      · exact hi
      · exact h.bufferInside c hc
    bufferEmpty := by simp [hp]
    bufferFull := fun hp' k hk => by
      rw [State.exchangeByte_tb, Memory.read_write]
      split
      · rfl
      · exact h.bufferFull hp' k hk
    index := fun _ => (State.bidx_succ_toNat hi).trans_le hi }

theorem State.Inv.enterValidate (h : s.Inv) (hp : s.phase = .exchange) : s.enterValidate.Inv :=
  have hbusy : s.phase ≠ .idle := by simp [hp]
  { h with
    bufferEmpty := by simp
    bufferFull := fun _ => h.bufferFull (.inl hp)
    busyOwned := fun _ => h.busyOwned hbusy
    header := fun _ => h.header hbusy
    headerBuilt := fun _ => h.headerBuilt (.inl hp)
    payload := fun _ => h.payload hbusy
    index := by simp }

/-- An error ends a transaction with no word, as none was present while it was in flight. -/
theorem State.Inv.raise (h : s.Inv) (hb : s.phase ≠ .idle) (kind : ErrorKind) : (s.raise kind).Inv := by
  obtain ⟨ho, hd⟩ := h.busyOwned hb
  have hs : (s.raise kind).status ≠ .ok := by cases kind <;> simp
  exact .of_idle rfl rfl (fun _ => ho) (fun _ h0 => absurd h0 hs) (fun _ => h.rdata_of_not_done hd)

/-- Completion holds N words for a read, and none for a write. -/
theorem State.Inv.complete (h : s.Inv) (hb : s.phase ≠ .idle) {ws : List Word}
    (hread : s.op = 0 → ws.length = s.count) (hwrite : s.op ≠ 0 → ws = []) : (s.complete ws).Inv :=
  .of_idle rfl rfl (fun _ => (h.busyOwned hb).1) (fun _ _ => hread) (fun hn => hwrite fun h0 => hn ⟨rfl, rfl, h0⟩)

end

/-! ### Every step -/

/-- Settles O45: each case of a step is an operation, or a composition of operations, that keeps the invariant. -/
theorem stepKeepsInv : Obligations.StepKeepsInv := by
  intro s t h hstep
  cases step_cases hstep with
  | stay _ ht => exact ht ▸ h
  | reset _ _ ht => exact ht ▸ .hwReset
  | codec _ out ht => exact ht ▸ h.answer out
  | construct hp ho ht => exact ht ▸ h.takeTransport hp ho
  | accept hp ho op a m l ws u ht hw => exact ht ▸ h.accept hp ho a m u hw
  | encode _ _ ht => exact ht ▸ h.buildHeader
  | frame hp hb payload hl _ ht => exact ht ▸ h.frame hp hb s.hdr hl
  | wait _ ht => exact ht ▸ h.useAnswer
  | failByte hp _ x _ ht => exact ht ▸ (h.useAnswer.putOnLine x).raise (by simp [hp]) .ioError
  | failEnd hp _ ht => exact ht ▸ h.useAnswer.raise (by simp [hp]) .ioError
  | byte hp hi x r _ ht =>
    have hi' : (s.useAnswer.putOnLine x).bidx.toNat < (s.useAnswer.putOnLine x).frameLen := by
      simpa [State.frameLen] using hi
    exact ht ▸ (h.useAnswer.putOnLine x).exchangeByte (by simp [hp]) hi' r
  | exchanged hp _ ht => exact ht ▸ h.useAnswer.enterValidate (by simp [hp])
  | reject hp w ht => exact ht ▸ (h.latchEcho w).raise (by simp [hp]) .headerBadError
  | readDone hp ho w ws hl ht =>
    exact ht ▸ (h.latchEcho w).complete (by simp [hp]) (fun _ => hl) (fun h0 => absurd ho h0)
  | writeDone hp ho w ht =>
    have hd : s.done = false := (h.busyOwned (by simp [hp])).2
    exact ht ▸ (h.latchEcho w).complete (by simp [hp]) (fun h0 => absurd h0 ho) (fun _ => h.rdata_of_not_done hd)

end Sys2Proof.Machine
end

