-- ==== Sys2Proof/Proofs/State.lean ====
section
/-! PROOFS. The statements about 10_state.md: how PHASE, OWNED, the command latches and the result change in a step,
what the result port shows, the values after reset, and that a codec operation touches no element. -/

namespace Sys2Proof.Machine

/-! ### The phases and the ownership (10_state.md rules R18 and R22) -/

/-- Settles O49: the case of a step names the phase it is taken in and the operation that writes the next one. -/
theorem phaseMovesAlongItsEdges : Obligations.PhaseMovesAlongItsEdges := by
  intro s t hstep
  cases step_cases hstep with
  | stay hp ht | codec hp _ ht | encode hp _ ht | wait hp ht | byte hp _ _ _ _ ht =>
    -- PHASE is kept
    simp [ht, hp, phaseEdge]
  | accept hp _ _ _ _ _ _ _ ht | frame hp _ _ _ _ ht | exchanged hp _ ht =>
    -- the transaction goes on to its next phase
    simp [ht, hp, phaseEdge]
  | reset hp _ ht | construct hp _ ht | failByte hp _ _ _ ht | failEnd hp _ ht | reject hp _ ht
  | readDone hp _ _ _ _ ht | writeDone hp _ _ ht =>
    -- the engine is idle
    simp [ht, hp, phaseEdge]

/-- Settles O50: besides a served reset only CONSTRUCT writes OWNED, and ACCEPT finds it set. -/
theorem ownershipIsNeverReleased : Obligations.OwnershipIsNeverReleased := by
  intro s t hstep hnr
  cases step_cases hstep with
  | reset hp hr => exact absurd ⟨hp, hr⟩ hnr
  | construct hp _ ht c rest hc hd => exact ⟨by simp [ht], fun _ _ => ⟨c, rest, hp, hc, hd⟩, by simp [ht]⟩
  | accept _ ho _ _ _ _ _ _ ht => simp [ht, ho]
  | stay hp ht | codec hp _ ht | encode hp _ ht | frame hp _ _ _ _ ht | wait hp ht | failByte hp _ _ _ ht
  | failEnd hp _ ht | byte hp _ _ _ _ ht | exchanged hp _ ht | reject hp _ ht | readDone hp _ _ _ _ ht
  | writeDone hp _ _ ht =>
    -- OWNED is kept, and no step but ACCEPT leaves IDLE
    simp +contextual [ht, hp]

/-! ### The command and the result of a transaction in flight (10_state.md rules R19, R24 and R27) -/

/-- Settles O51: the steps in IDLE are excluded, and of the others only ENCODE writes one of these elements, HDR. -/
theorem commandIsStableInFlight : Obligations.CommandIsStableInFlight := by
  intro s t hbusy hstep
  cases step_cases hstep with
  | stay hp | reset hp | codec hp | construct hp | accept hp => exact absurd hp hbusy
  | encode hp hb ht => simp [ht, hp, hb]
  | frame _ _ _ _ _ ht | wait _ ht | failByte _ _ _ _ ht | failEnd _ _ ht | byte _ _ _ _ _ ht | exchanged _ _ ht
  | reject _ _ ht | readDone _ _ _ _ _ ht | writeDone _ _ _ ht => simp [ht]

/-- In flight a step keeps the result and stays in flight, or it ends the transaction. -/
theorem step_result_of_busy {s t : State} (hbusy : s.phase ≠ .idle) (hstep : step s = .next t) :
    (t.phase ≠ .idle ∧ t.status = s.status ∧ t.rdata = s.rdata ∧ t.done = s.done) ∨
      (t.phase = .idle ∧ t.done = true) := by
  cases step_cases hstep with
  | stay hp | reset hp | codec hp | construct hp | accept hp => exact absurd hp hbusy
  | encode hp _ ht | frame hp _ _ _ _ ht | wait hp ht | byte hp _ _ _ _ ht | exchanged hp _ ht =>
    left; simp [ht, hp]
  | failByte _ _ _ _ ht | failEnd _ _ ht | reject _ _ ht | readDone _ _ _ _ _ ht | writeDone _ _ _ ht =>
    right; simp [ht]

/-- In IDLE, where no reset is served, a step keeps the result, or ACCEPT or CONSTRUCT clears DONE. -/
theorem step_result_of_idle {s t : State} (hidle : s.phase = .idle) (hnr : s.resetReq = false)
    (hstep : step s = .next t) :
    t.status = s.status ∧ ((t.phase = .idle ∧ t.rdata = s.rdata ∧ t.done = s.done) ∨
      (t.done = false ∧ (t.phase = .encode ∨ (s.owned = false ∧ t.owned = true)))) := by
  cases step_cases hstep with
  | reset _ hr => simp [hr] at hnr
  | stay _ ht | codec _ _ ht => simp [ht, hidle]
  | construct _ ho ht => simp [ht, ho]
  | accept _ _ _ _ _ _ _ _ ht => simp [ht]
  | encode hp | frame hp | wait hp | failByte hp | failEnd hp | byte hp | exchanged hp | reject hp | readDone hp
  | writeDone hp => simp [hp] at hidle

/-- Settles O52, in flight and in IDLE. -/
theorem resultAppearsInOneStep : Obligations.ResultAppearsInOneStep :=
  ⟨fun _ _ => step_result_of_busy, fun _ _ => step_result_of_idle⟩

/-! ### The result port (30_encoding.md rule R81, 10_state.md rule R33) -/

theorem State.rspStatus_eq_ok_iff (s : State) (v : BitVec 2) :
    s.rspStatus = .ok v ↔ s.done = true ∧ s.status.code = v := by
  unfold State.rspStatus
  split <;> simp [*]

/-- A word is shown exactly while a completed read is and the word exists. -/
theorem State.rspRdata_eq_ok_iff (s : State) (k : Nat) (w : Word) :
    s.rspRdata k = .ok w ↔
      (s.done = true ∧ s.status = .ok ∧ s.op = 0 ∧ k < s.count) ∧ s.rdata[k]? = some w := by
  have hvalid : (s.done && s.status == .ok && s.op == 0 && decide (k < s.count)) = true ↔
      s.done = true ∧ s.status = .ok ∧ s.op = 0 ∧ k < s.count := by simp [and_assoc]
  unfold State.rspRdata
  split
  · rename_i hc
    cases s.rdata[k]? <;> simp [hvalid.mp hc]
  · rename_i hc
    exact ⟨nofun, fun h => absurd (hvalid.mpr h.1) hc⟩

/-- The only fault of a read of the result port. -/
theorem State.rspRdata_ok_or_noValue (s : State) (k : Nat) :
    (∃ w, s.rspRdata k = .ok w) ∨ s.rspRdata k = .error .noValue := by
  unfold State.rspRdata
  split
  · split
    · exact .inl ⟨_, rfl⟩
    · exact .inr rfl
  · exact .inr rfl

/-- Settles O56: under the invariant every word below N exists after a completed read. -/
theorem resultPortIsValidOnlyInsideItsLifetime : Obligations.ResultPortIsValidOnlyInsideItsLifetime := by
  intro s h
  refine ⟨by simp [State.rspStatus_eq_ok_iff], fun k => ?_, fun k hno => ?_⟩
  · simp only [State.rspRdata_eq_ok_iff, exists_and_left]
    refine and_iff_left_of_imp fun ⟨hd, hs, ho, hk⟩ => ?_
    rw [← h.resultRead hd hs ho] at hk
    exact ⟨_, List.getElem?_eq_getElem hk⟩
  · exact (s.rspRdata_ok_or_noValue k).resolve_left fun ⟨w, hw⟩ => hno w hw

/-! ### The values after reset (10_state.md rule R34) -/

/-- With no result present the caller can read none. -/
theorem State.no_result_of_not_done {s : State} (hd : s.done = false) :
    s.callResult = .error .noValue ∧ s.rspStatus = .error .noValue ∧ ∀ k, s.rspRdata k = .error .noValue := by
  simp [State.callResult, State.rspStatus, State.rspRdata, hd]

/-- Settles O44: in both states no result is present and the buffer is empty. -/
theorem resetValues : Obligations.ResetValues := by
  obtain ⟨hres, hstatus, hwords⟩ := State.no_result_of_not_done (s := State.reset) rfl
  obtain ⟨hres', hstatus', hwords'⟩ := State.no_result_of_not_done (s := State.reset.takeTransport) rfl
  exact ⟨rfl, rfl, rfl, hres, hstatus, hwords, fun _ => rfl, State.reset.takeTransport, rfl, rfl, rfl, rfl, hres',
    hstatus', hwords', fun _ => rfl⟩

/-! ### The codec (10_state.md rule R15) -/

/-- A codec operation answers in every state, with the same value. -/
theorem exec_codec {i : Instr} (hi : isCodec i = true) : ∃ out, ∀ s, exec i s = .next (s.answer out) := by
  cases i with
  | construct | execRead | execWrite | hdrCtrlRead | hdrCtrlWrite | hdrEngineRead | hdrEngineWrite | echoAccept
  | echoReject | getIdver | getPhyid | getCapability => cases hi
  | _ => exact ⟨_, fun _ => rfl⟩

theorem State.sameCore_answer (s : State) (out : CodecOut) : s.sameCore (s.answer out) := by
  simp [State.sameCore]

/-- Settles O12: answering the caller writes the caller's two fields only. -/
theorem codecReadsAndWritesNoState : Obligations.CodecReadsAndWritesNoState := by
  intro i hi
  obtain ⟨out, hexec⟩ := exec_codec hi
  exact ⟨out, fun s => ⟨s.answer out, hexec s, rfl, s.sameCore_answer out, rfl, rfl, rfl⟩⟩

end Sys2Proof.Machine
end

