-- ==== Sys2Proof/Proofs/Buffer.lean ====
section
/-! PROOFS. The statement about 20_memory.md: a buffer access inside the frame (rule R42), and one that reaches outside
it (log entry 16). -/

namespace Sys2Proof.Machine

/-! ### Reading back a run -/

/-- A run of bytes written at any address reads back, whatever the buffer held before. -/
theorem Memory.readList_writeList_same (v : List Byte) (m : Memory) (a : Nat) :
    Memory.readList (Memory.writeList m a v) a v.length = some v := by
  refine (Memory.readList_eq_some _ _ _ _).mpr ⟨rfl, fun j hj => ?_⟩
  rw [Memory.read_writeList, if_pos ⟨Nat.le_add_right a j, Nat.add_lt_add_left hj a⟩, Nat.add_sub_cancel_left]

/-- A run of bytes written leaves every byte outside the run as before. -/
theorem Memory.read_writeList_other (v : List Byte) (m : Memory) (a k : Nat) (h : k < a ∨ a + v.length ≤ k) :
    Memory.read (Memory.writeList m a v) k = Memory.read m k := by
  rw [Memory.read_writeList, if_neg (by omega)]

/-! ### Accesses that reach outside the frame -/

theorem State.memWrite_outside (s : State) (a : Nat) (v : List Byte) (h : s.frameLen < a + v.length) :
    s.memWrite a v = .error .outsideBuffer := if_neg (Nat.not_le.mpr h)

theorem State.memRead_outside (s : State) (a n : Nat) (h : s.frameLen < a + n) :
    s.memRead a n = .error .outsideBuffer := if_neg (Nat.not_le.mpr h)

/-- Settles O57: a write changes the buffer only, so the frame keeps its length L and the same bound that lets the write
answer lets the read back answer. -/
theorem bufferAccessStaysInsideTheFrame : Obligations.BufferAccessStaysInsideTheFrame := by
  intro s a v
  constructor
  · intro hin
    refine ⟨Memory.writeList s.tb a v, s.memWrite_ok a v hin, ?_, ?_, ?_⟩
    · exact (s.withBuffer (Memory.writeList s.tb a v)).memRead_ok a v.length v hin
        (Memory.readList_writeList_same v s.tb a)
    · exact fun k hk => Memory.read_writeList_other v s.tb a k hk
    · exact fun hwf => Memory.writeList_wf v s.tb a hwf
  · intro hout
    exact ⟨s.memWrite_outside a v hout, s.memRead_outside a v.length hout⟩

end Sys2Proof.Machine
end

