-- ==== Sys2Proof/Proofs/Encoding.lean ====
section
/-! PROOFS. The statements about 30_encoding.md: the round trip of the instructions, the classes of the wire words, the
selectors that name no operation, the convenience reads, an idle port and the codes of the result port. -/

namespace Sys2Proof.Machine

/-! ### The operands of a call, read back from their bytes (log entry 9) -/

theorem decodeHeaderOperand_be32 (k : Word → Instr) (h : Word) : decodeHeaderOperand k (be32 h) = .ok (k h) := by
  rw [decodeHeaderOperand, takeWord_be32_nil]

theorem decodeSetterOperands_be32 (k : Word → Nat → Instr) (h : Word) {v : Nat} (hv : Instr.natFits v = true) :
    decodeSetterOperands k (be32 h ++ natBytes v) = .ok (k h v) := by
  simp only [decodeSetterOperands, natBytes, takeWord_be32, takeWord_be32_nil, toNat_ofNat_of_natFits v hv]

theorem decodeEncodeOperands_natBytes {l a m : Nat} (i w : BitVec 1) (hl : Instr.natFits l = true)
    (ha : Instr.natFits a = true) (hm : Instr.natFits m = true) :
    decodeEncodeOperands (natBytes l ++ natBytes a ++ natBytes m ++ [i.setWidth 8, w.setWidth 8]) =
      .ok (.encode l a m i w) := by
  have bit (v : BitVec 1) : (v.setWidth 8).setWidth 1 = v := by simp
  simp only [decodeEncodeOperands, natBytes, List.append_assoc, takeWord_be32, toNat_ofNat_of_natFits _ hl,
    toNat_ofNat_of_natFits _ ha, toNat_ofNat_of_natFits _ hm, bit]

/-- The command port's fields keep every bit of address, memory map and count (30_encoding.md rule R80). -/
theorem decodeReadOperands_portBytes (a : BitVec 16) (m : BitVec 4) {n : Nat} (h1 : 1 ≤ n) (h2 : n ≤ 128) :
    decodeReadOperands (portBytes a m n) = .ok (.execRead a m n) := by
  simp [decodeReadOperands, portBytes, append_extract_address, count_of_len n h1 h2]

theorem decodeWriteOperands_portBytes (a : BitVec 16) (m : BitVec 4) {n : Nat} {ws : List Word} (h1 : 1 ≤ n)
    (h2 : n ≤ 128) (hl : ws.length = n) :
    decodeWriteOperands (portBytes a m n ++ ws.flatMap be32) = .ok (.execWrite a m n ws) := by
  have hws : takeWords n (ws.flatMap be32) = some ws := by simpa [hl] using takeWords_flatMap_be32 ws []
  simp [decodeWriteOperands, portBytes, append_extract_address, count_of_len n h1 h2, hws]

/-! ### Decoding and encoding -/

/-- Settles O38: a call's selector leads to the decoder of its operands, which reads them back; a wire word's fields are
read back from the packed header, and its class from the fields that are fixed in it. -/
theorem encodeThenDecode : Obligations.EncodeThenDecode := by
  intro i hwf
  cases i with
  | calcParity h | toBytes h | hdrOk h | getParity h | getLength h | getAddress h | getMemmap h | getAid h | getWnr h
  | getHdrb h | getReserved h => exact decodeHeaderOperand_be32 _ h
  | setParity h v | setLength h v | setAddress h v | setMemmap h v | setAid h v | setWnr h v | setHdrb h v
  | setReserved h v => exact decodeSetterOperands_be32 _ h hwf
  | encode l a m d w =>
    obtain ⟨⟨hl, ha⟩, hm⟩ : (Instr.natFits l = true ∧ Instr.natFits a = true) ∧ Instr.natFits m = true := by
      simpa [Instr.wellFormed] using hwf
    exact decodeEncodeOperands_natBytes d w hl ha hm
  | fromBytes | construct | getIdver | getPhyid | getCapability => rfl
  | execRead a m n =>
    obtain ⟨h1, h2⟩ := (admitsRead_iff n).mp hwf
    exact decodeReadOperands_portBytes a m h1 h2
  | execWrite a m n ws =>
    obtain ⟨⟨h1, h2⟩, hl⟩ := (admitsWrite_iff n ws).mp hwf
    exact decodeWriteOperands_portBytes a m h1 h2 hl
  | hdrCtrlRead p l a m d =>
    obtain rfl : d = 0 := by simpa [Instr.wellFormed] using hwf
    exact decodeSent_packHeader p l a m 0 0
  | hdrCtrlWrite p l a m d =>
    obtain rfl : d = 0 := by simpa [Instr.wellFormed] using hwf
    exact decodeSent_packHeader p l a m 0 1
  | hdrEngineRead p l a m => exact decodeSent_packHeader p l a m 1 0
  | hdrEngineWrite p l a m => exact decodeSent_packHeader p l a m 1 1
  | echoAccept p l a m d w r => exact congrArg Except.ok (decodeReceived_packHeader p l a m d w 0 r)
  | echoReject p l a m d w r => exact congrArg Except.ok (decodeReceived_packHeader p l a m d w 1 r)

/-- Settles O39: the fields a wire word decodes to pack to the word. -/
theorem decodeThenEncodeWireWords : Obligations.DecodeThenEncodeWireWords := by
  constructor
  · intro h i hd
    rcases decodeSent_ok hd with ⟨_, _, _, _, rfl, hh⟩ | ⟨_, _, _, _, rfl, hh⟩ | ⟨_, _, _, _, rfl, hh⟩ |
      ⟨_, _, _, _, rfl, hh⟩ <;> exact congrArg Image.sent hh
  · intro h i hd
    obtain rfl : decodeReceived h = i := Except.ok.inj hd
    rcases decodeReceived_cases h with ⟨-, _, _, _, _, _, _, _, he, hh⟩ | ⟨-, _, _, _, _, _, _, _, he, hh⟩ <;>
      exact he ▸ congrArg Image.received hh

/-- Settles O40: the decoder, evaluated on each image. -/
theorem knownWordsDecode : Obligations.KnownWordsDecode := by
  unfold Obligations.KnownWordsDecode
  decide

/-! ### The classes of wire words (30_encoding.md rules R77 and R78) -/

/-- The engine's read class, by the bits of the table. -/
theorem encodeHeader_engineRead_bits (l a m : Nat) :
    encodeHeader l a m Config.engineAid 0 &&& 0xF0000000#32 = 0x10000000#32 := by
  obtain ⟨hread, -, -, -, -⟩ := topBits (encodeHeader l a m Config.engineAid 0)
  exact hread.mpr ⟨getField_aid_encodeHeader .., getField_wnr_encodeHeader .., getField_hdrb_encodeHeader ..,
    getField_reserved_encodeHeader ..⟩

/-- The engine's write class, by the bits of the table. -/
theorem encodeHeader_engineWrite_bits (l a m : Nat) :
    encodeHeader l a m Config.engineAid 1 &&& 0xF0000000#32 = 0x30000000#32 := by
  obtain ⟨-, hwrite, -, -, -⟩ := topBits (encodeHeader l a m Config.engineAid 1)
  exact hwrite.mpr ⟨getField_aid_encodeHeader .., getField_wnr_encodeHeader .., getField_hdrb_encodeHeader ..,
    getField_reserved_encodeHeader ..⟩

/-- The mask of the echo rows tests one bit. -/
theorem hdrbMask_eq_self_iff (h : Word) :
    h &&& 0x40000000#32 = 0x40000000#32 ↔ ¬ h &&& 0x40000000#32 = 0x00000000#32 := by
  rw [top_bits_eq _ _ _ (by decide), top_bits_eq _ _ _ (by decide)]
  simp

theorem decode_received_echoAccept_iff (h : Word) :
    (∃ p l a m d w r, decode (.received h) = .ok (.echoAccept p l a m d w r)) ↔ getField .hdrb h = 0 := by
  rcases decodeReceived_cases h with ⟨hb, _, _, _, _, _, _, _, he, -⟩ | ⟨hb, _, _, _, _, _, _, _, he, -⟩ <;>
    simp [decode, he, hb]

theorem decode_received_echoReject_iff (h : Word) :
    (∃ p l a m d w r, decode (.received h) = .ok (.echoReject p l a m d w r)) ↔ ¬ getField .hdrb h = 0 := by
  rcases decodeReceived_cases h with ⟨hb, _, _, _, _, _, _, _, he, -⟩ | ⟨hb, _, _, _, _, _, _, _, he, -⟩ <;>
    simp [decode, he, hb]

/-- Settles O24: a header of ENCODE has `hdrb = 0` and `reserved = 0`; a received word has one of the two values of
`hdrb`, which alone chooses the echo. -/
theorem wireClassesCover : Obligations.WireClassesCover := by
  constructor
  · intro l a m d w
    obtain ⟨-, -, hread, hwrite, -⟩ := topBits (encodeHeader l a m d w)
    have hhdrb : getField .hdrb (encodeHeader l a m d w) = 0 := getField_hdrb_encodeHeader ..
    have hres : getField .reserved (encodeHeader l a m d w) = 0 := getField_reserved_encodeHeader ..
    have hwnr : getField .wnr (encodeHeader l a m d w) = w := getField_wnr_encodeHeader ..
    exact ⟨fun h0 => hread.mpr ⟨hwnr.trans h0, hhdrb, hres⟩, fun h1 => hwrite.mpr ⟨hwnr.trans h1, hhdrb, hres⟩⟩
  · intro h
    obtain ⟨-, -, -, -, haccept⟩ := topBits h
    rw [decode_received_echoAccept_iff, decode_received_echoReject_iff, hdrbMask_eq_self_iff, haccept]
    exact ⟨em _, .rfl, .rfl⟩

/-! ### Commands at the port of a ready engine (41_engine.md rule R129) -/

theorem offerCommand_of_ready {s : State} (ho : s.owned = true) (hp : s.phase = .idle) (a : State) :
    offerCommand s a = .next a := if_pos ((State.cmdReady_iff s).mpr ⟨ho, hp⟩)

/-- A convenience read is accepted as the read of one register in memory map 0 (30_encoding.md rule R88). -/
theorem convenienceRead_of_ready {s : State} (ho : s.owned = true) (hp : s.phase = .idle) (a : BitVec 16) :
    convenienceRead a s = .next (s.accept 0 a standardMap (lenOfCount 1) [] true) := offerCommand_of_ready ho hp _

theorem execExecRead_of_ready {s : State} (ho : s.owned = true) (hp : s.phase = .idle) (a : BitVec 16) (m : BitVec 4)
    {n : Nat} (hn : admitsRead n = true) :
    execExecRead a m n s = .next (s.accept 0 a m (lenOfCount n) [] false) := by
  rw [execExecRead, if_pos hn, offerCommand_of_ready ho hp]

/-- A convenience read and the EXEC_READ of its register latch the same command, but for the caller's `unwrap`. -/
theorem convenienceRead_eq_execRead {s : State} (ho : s.owned = true) (hp : s.phase = .idle) (a : BitVec 16) :
    ∃ t, exec (.execRead a 0 1) s = .next t ∧ t.phase = .encode ∧
      convenienceRead a s = .next { t with unwrap := true } :=
  ⟨_, execExecRead_of_ready ho hp a 0 rfl, rfl, convenienceRead_of_ready ho hp a⟩

/-- Settles O21: the three register addresses of rule R89. -/
theorem convenienceReadsAreReads : Obligations.ConvenienceReadsAreReads := fun _ ho hp =>
  ⟨convenienceRead_eq_execRead ho hp idVerAddress, convenienceRead_eq_execRead ho hp phyIdAddress,
    convenienceRead_eq_execRead ho hp capabilityAddress⟩

/-- The step after a convenience read is accepted builds the header the read is encoded as. -/
theorem hdr_of_convenienceRead {s t u : State} {a : BitVec 16} (ho : s.owned = true) (hp : s.phase = .idle)
    (ht : convenienceRead a s = .next t) (hu : step t = .next u) : u.hdr = convenienceHeader a := by
  rw [convenienceRead_of_ready ho hp] at ht
  cases ht
  rw [step_encode rfl rfl] at hu
  cases hu
  rfl

/-- Settles O23: step ENCODE takes `aid` from the configuration and `wnr` from OP, and its parity is always odd. -/
theorem engineHeadersAreInTheirClass : Obligations.EngineHeadersAreInTheirClass := by
  constructor
  · intro s t hp hb hstep
    rw [step_encode hp hb] at hstep
    cases hstep
    rw [State.buildHeader_hdr]
    refine ⟨fun h0 => ?_, fun h1 => ?_, ?_⟩
    · rw [h0, encodeHeader_engineRead_bits]
    · rw [h1, encodeHeader_engineWrite_bits]
    · exact beq_iff_eq.mp (oddParity_encodeHeader ..)
  · intro s t u ho hp
    have hdr {a : BitVec 16} {w : Word} (hw : convenienceHeader a = w) (ht : convenienceRead a s = .next t)
        (hu : step t = .next u) : u.hdr = w := hw ▸ hdr_of_convenienceRead ho hp ht hu
    exact ⟨hdr (by decide), hdr (by decide), hdr (by decide)⟩

/-- Settles O34: with no call there is nothing to fetch. -/
theorem idleEngineWaits : Obligations.IdleEngineWaits := by
  intro s hp hr hc
  simp [step, hp, hr, fetchCall, hc, runFetched]

/-! ### Calls that are no operation (30_encoding.md rule R84) -/

section
variable {bs : List Byte} {e : DecodeError}

theorem decodeHeaderOperand_error {k : Word → Instr} (h : decodeHeaderOperand k bs = .error e) :
    e = .truncatedCall := by
  unfold decodeHeaderOperand at h
  split at h <;> cases h
  rfl

theorem decodeSetterOperands_error {k : Word → Nat → Instr} (h : decodeSetterOperands k bs = .error e) :
    e = .truncatedCall := by
  unfold decodeSetterOperands at h
  split at h
  · split at h <;> cases h
    rfl
  · cases h; rfl

theorem decodeEncodeOperands_error (h : decodeEncodeOperands bs = .error e) : e = .truncatedCall := by
  unfold decodeEncodeOperands at h
  split at h
  · split at h
    · split at h <;> cases h
      rfl
    · cases h; rfl
  · cases h; rfl

theorem decodeFourBytes_error (h : decodeFourBytes bs = .error e) : e = .truncatedCall := by
  unfold decodeFourBytes at h
  split at h <;> cases h
  rfl

theorem decodeReadOperands_error (h : decodeReadOperands bs = .error e) : e = .truncatedCall := by
  unfold decodeReadOperands at h
  split at h <;> cases h
  rfl

theorem decodeWriteOperands_error (h : decodeWriteOperands bs = .error e) : e = .truncatedCall := by
  unfold decodeWriteOperands at h
  split at h
  · split at h <;> cases h
    rfl
  · cases h; rfl

/-- A selector either names an operation, whose operands can only be too short, or is one of the reserved ones. -/
theorem decodeSelector_error {sel : BitVec 5} (h : decodeSelector sel bs = .error e) :
    e = .truncatedCall ∨
      (e = .noSuchOperation sel ∧ sel.toNat ∈ [0x05, 0x06, 0x07, 0x19, 0x1C, 0x1D, 0x1E, 0x1F]) := by
  unfold decodeSelector at h
  split at h
  case h_1 => exact .inl (decodeEncodeOperands_error h)
  case h_2 | h_3 | h_5 | h_6 | h_7 | h_8 | h_9 | h_10 | h_11 | h_12 | h_13 => exact .inl (decodeHeaderOperand_error h)
  case h_4 => exact .inl (decodeFourBytes_error h)
  case h_14 | h_15 | h_16 | h_17 | h_18 | h_19 | h_20 | h_21 => exact .inl (decodeSetterOperands_error h)
  case h_22 => cases h
  case h_23 => exact .inl (decodeReadOperands_error h)
  case h_24 => exact .inl (decodeWriteOperands_error h)
  case h_25 =>
    have hlt := sel.isLt
    refine .inr ⟨(Except.error.inj h).symm, ?_⟩
    simp only [List.mem_cons, List.not_mem_nil, or_false, imp_false] at *
    omega

theorem decodeSelector_reserved {sel : BitVec 5} (bs : List Byte)
    (hsel : sel.toNat ∈ [0x05, 0x06, 0x07, 0x19, 0x1C, 0x1D, 0x1E, 0x1F]) :
    decodeSelector sel bs = .error (.noSuchOperation sel) := by
  simp only [List.mem_cons, List.not_mem_nil, or_false] at hsel
  rcases hsel with h | h | h | h | h | h | h | h <;> simp only [decodeSelector, h]

end

/-- Running a caller's call answers a next state, but for the two refusals of the engine's operations (41_engine.md
rules R124 and R125). -/
theorem exec_call_answers {i : Instr} (hw : i.isWire = false) (s : State) :
    (∃ t, exec i s = .next t) ∨ exec i s = .refused .alreadyConstructed ∨ exec i s = .refused .notAdmitted := by
  have command (a : State) : ∃ t, offerCommand s a = .next t := by
    unfold offerCommand
    split <;> exact ⟨_, rfl⟩
  cases i with
  | construct =>
    simp only [exec, execConstruct]
    split
    · exact .inr (.inl rfl)
    · exact .inl ⟨_, rfl⟩
  | execRead =>
    simp only [exec, execExecRead]
    split
    · exact .inl (command _)
    · exact .inr (.inr rfl)
  | execWrite =>
    simp only [exec, execExecWrite]
    split
    · exact .inl (command _)
    · exact .inr (.inr rfl)
  | getIdver | getPhyid | getCapability => exact .inl (command _)
  | hdrCtrlRead | hdrCtrlWrite | hdrEngineRead | hdrEngineWrite | echoAccept | echoReject => cases hw
  | _ => exact .inl ⟨_, rfl⟩

/-- In IDLE a call that does not decode is refused with its decoding error. -/
theorem step_call_error {s : State} {c : Call} {rest : List Call} {e : DecodeError} (hp : s.phase = .idle)
    (hr : s.resetReq = false) (hc : s.calls = c :: rest) (hd : decode (.call c) = .error e) :
    step s = .refused (refusalOf e) := by
  simp [step, hp, hr, fetchCall, hc, fetchImage, hd, runFetched]

/-- Settles O41: a call that decodes is never refused by its selector, and one that does not is refused with the error
of the selector table. -/
theorem reservedSelectorsAreRefused : Obligations.ReservedSelectorsAreRefused := by
  intro s b operands rest hp hr hc
  constructor
  · intro hstep
    cases hd : decode (.call (.op (b :: operands))) with
    | ok i =>
      rw [step_call hp hr hc hd] at hstep
      rcases exec_call_answers (decode_call_ok hd).1 s with ⟨t, ht⟩ | ht | ht <;> rw [ht] at hstep <;> cases hstep
    | error e =>
      rw [step_call_error hp hr hc hd] at hstep
      rcases decodeSelector_error hd with rfl | ⟨-, hsel⟩
      · cases hstep
      · exact hsel
  · intro hsel
    exact step_call_error hp hr hc (decodeSelector_reserved operands hsel)

/-! ### The codes of STATUS (30_encoding.md rule R83) -/

theorem Status.code_ne_three (v : Status) : v.code ≠ 3 := by cases v <;> decide

/-- Settles O55: with a result present the port shows the code of STATUS, and no status has code 3. -/
theorem statusPortShowsItsCode : Obligations.StatusPortShowsItsCode := by
  intro s hd
  have shows {v : BitVec 2} (hv : s.status.code = v) : s.rspStatus = .ok v := (s.rspStatus_eq_ok_iff v).mpr ⟨hd, hv⟩
  refine ⟨fun h => shows (h ▸ rfl), fun h => shows (h ▸ rfl), fun h => shows (h ▸ rfl), fun h => ?_⟩
  exact s.status.code_ne_three ((s.rspStatus_eq_ok_iff 3).mp h).2

end Sys2Proof.Machine
end

