-- ==== Sys2Proof/Proofs/Progress.lean ====
section
/-! PROOFS. No step faults (30_encoding.md rule R91, 60_exceptions.md rule R173): in a state that meets the invariant
every step in flight answers a next state, since every image the sequencer fetches there decodes, and every element it
reads holds a value. -/

namespace Sys2Proof.Machine

/-- The header of a command in flight decodes to the engine's wire word of the command's direction. -/
theorem decodeSent_encodeHeader (l a m : Nat) (w : BitVec 1) :
    (w = 0 ∧ ∃ p l' a' m', decodeSent (encodeHeader l a m Config.engineAid w) = .ok (.hdrEngineRead p l' a' m')) ∨
    (w = 1 ∧ ∃ p l' a' m', decodeSent (encodeHeader l a m Config.engineAid w) = .ok (.hdrEngineWrite p l' a' m')) := by
  have hh := packHeader_getField (encodeHeader l a m Config.engineAid w)
  rw [getField_aid_encodeHeader, getField_wnr_encodeHeader, getField_hdrb_encodeHeader,
    getField_reserved_encodeHeader] at hh
  rw [← hh, decodeSent_packHeader]
  rcases bit_cases w with rfl | rfl
  · exact .inl ⟨rfl, _, _, _, _, rfl⟩
  · exact .inr ⟨rfl, _, _, _, _, rfl⟩

/-- FRAME of a read answers wherever it is enabled. -/
theorem frameRead_answers {s : State} (hp : s.phase = .encode) (hb : s.hdrBuilt = true) (h : Word) :
    ∃ t, frameRead h s = .next t :=
  ⟨_, by rw [frameRead, if_pos ⟨hp, hb⟩, s.frame_ok h _ List.length_replicate]; rfl⟩

/-- FRAME of a write answers wherever it is enabled and the payload is there. -/
theorem frameWrite_answers {s : State} (hp : s.phase = .encode) (hb : s.hdrBuilt = true)
    (hw : s.wdata.length = s.count) (h : Word) : ∃ t, frameWrite h s = .next t :=
  ⟨_, by rw [frameWrite, if_pos ⟨hp, hb⟩, if_pos hw.ge, s.frame_ok h _ (by simp [hw])]; rfl⟩

theorem byteStep_answers (s : State) (x : Byte) : ∃ t, byteStep s x = .next t := by
  unfold byteStep
  split <;> exact ⟨_, rfl⟩

theorem finalStep_answers (s : State) : ∃ t, finalStep s = .next t := by
  unfold finalStep
  split <;> exact ⟨_, rfl⟩

section
variable {s : State}

/-- In IDLE a step answers a next state or refuses the call. -/
theorem step_idle_answers (hp : s.phase = .idle) : (∃ t, step s = .next t) ∨ ∃ r, step s = .refused r := by
  cases hr : s.resetReq with
  | true => exact .inl ⟨s.hwReset, by simp [step, hp, hr]⟩
  | false =>
    cases hc : s.calls with
    | nil => exact .inl ⟨s, idleEngineWaits s hp hr hc⟩
    | cons c rest =>
      cases hd : decode (.call c) with
      | error e => exact .inr ⟨_, step_call_error hp hr hc hd⟩
      | ok i =>
        rw [step_call hp hr hc hd]
        exact (exec_call_answers (decode_call_ok hd).1 s).imp_right fun h => h.elim (⟨_, ·⟩) (⟨_, ·⟩)

/-- In ENCODE the header is built, or it is framed as the wire word it is. -/
theorem State.Inv.step_encode_answers (h : s.Inv) (hp : s.phase = .encode) : ∃ t, step s = .next t := by
  have hbusy : s.phase ≠ .idle := by simp [hp]
  cases hb : s.hdrBuilt with
  | false => exact ⟨_, step_encode hp hb⟩
  | true =>
    have hhdr := h.header hbusy hb
    rcases decodeSent_encodeHeader s.len.toNat s.addr.toNat s.mm.toNat s.op with ⟨-, _, _, _, _, hd⟩ |
      ⟨hop, _, _, _, _, hd⟩ <;> rw [← hhdr] at hd <;> rw [step_header hp hb hd]
    · exact frameRead_answers hp hb _
    · exact frameWrite_answers hp hb (h.payload hbusy hop) _

/-- In EXCHANGE the byte at BIDX holds a value, whatever the transport answers. -/
theorem State.Inv.step_exchange_answers (h : s.Inv) (hp : s.phase = .exchange) : ∃ t, step s = .next t := by
  rcases (h.index hp).lt_or_eq with hi | hi
  · obtain ⟨x, hx⟩ := Option.isSome_iff_exists.mp (h.bufferFull (.inl hp) _ hi)
    rw [step_byte hp hi hx]
    exact byteStep_answers s x
  · rw [step_final hp hi]
    exact finalStep_answers s

/-- Every run of bytes inside the frame can be read once the exchange has ended. -/
theorem State.Inv.readList_validate (h : s.Inv) (hp : s.phase = .validate) {a n : Nat} (hin : a + n ≤ s.frameLen) :
    ∃ bs, Memory.readList s.tb a n = some bs :=
  Memory.readList_isSome n s.tb a fun j hj => h.bufferFull (.inr hp) (a + j) (by omega)

/-- EXTRACT answers for a read, whose payload bytes hold values, and for a write, which reads none. -/
theorem State.Inv.extract_answers (h : s.Inv) (hp : s.phase = .validate) : ∃ t, s.extract = .ok t := by
  rcases bit_cases s.op with ho | ho
  · obtain ⟨bs, hbs⟩ := h.readList_validate hp (a := 8) (n := 4 * s.count) s.frameLen_eq.ge
    exact ⟨_, s.extract_read bs ho hbs⟩
  · exact ⟨_, s.extract_write ho⟩

/-- In VALIDATE the echo holds a value, and either echo class has a step on it. -/
theorem State.Inv.step_validate_answers (h : s.Inv) (hp : s.phase = .validate) : ∃ t, step s = .next t := by
  have hl := s.frameLen_eq
  have hc := s.count_eq
  obtain ⟨bs, hbs⟩ := h.readList_validate hp (a := 4) (n := 4) (by omega)
  obtain ⟨hlen, -⟩ := (Memory.readList_eq_some _ _ _ _).mp hbs
  obtain ⟨b0, b1, b2, b3, rfl⟩ := List.length_eq_four.mp hlen
  rw [step_echo hp hbs]
  rcases decodeReceived_cases (unbe32 b0 b1 b2 b3) with ⟨-, _, _, _, _, _, _, _, he, hh⟩ |
    ⟨-, _, _, _, _, _, _, _, he, hh⟩ <;> rw [he]
  · obtain ⟨t, ht⟩ := (h.latchEcho (unbe32 b0 b1 b2 b3)).extract_answers hp
    exact ⟨t, by rw [exec, execEchoAccept, if_pos hp, hh, ht]; rfl⟩
  · exact ⟨_, if_pos hp⟩

/-- While a transaction is in flight every step answers a next state. -/
theorem State.Inv.step_busy_answers (h : s.Inv) (hbusy : s.phase ≠ .idle) : ∃ t, step s = .next t := by
  cases hp : s.phase with
  | idle => exact absurd hp hbusy
  | encode => exact h.step_encode_answers hp
  | exchange => exact h.step_exchange_answers hp
  | validate => exact h.step_validate_answers hp

end

/-- Settles O47: in flight every step answers a next state, and in IDLE it answers one or refuses the call. -/
theorem noStepFaults : Obligations.NoStepFaults := by
  intro s f h hfault
  by_cases hp : s.phase = .idle
  · rcases step_idle_answers hp with ⟨t, ht⟩ | ⟨r, hr⟩
    · cases ht.symm.trans hfault
    · cases hr.symm.trans hfault
  · obtain ⟨t, ht⟩ := h.step_busy_answers hp
    cases ht.symm.trans hfault

end Sys2Proof.Machine
end

