-- ==== Sys2Proof/Proofs/Codec.lean ====
section
/-! PROOFS. The statements about 40_codec.md: the frame of a codec call, the five named operations, the getters and
setters with the laws of field access, and the parity a setter leaves. -/

namespace Sys2Proof.Machine

/-! ### The frame of a codec call (40_codec.md rule R93) -/

/-- Settles O13: a codec operation answers, and an answer writes the caller's two fields only. -/
theorem codecFrame : Obligations.CodecFrame := by
  intro i s hi
  obtain ⟨out, hexec⟩ := exec_codec hi
  exact ⟨out, hexec s⟩

/-! ### ENCODE and CALC_PARITY (40_codec.md rules R97, R98 and R103) -/

theorem popcount_calcParity (h : Word) : popcount (calcParity h) % 2 = 1 := beq_iff_eq.mp (oddParity_calcParity h)

/-- CALC_PARITY applied to its own result changes nothing. -/
theorem calcParity_calcParity (h : Word) : calcParity (calcParity h) = calcParity h :=
  calcParity_of_odd _ (oddParity_calcParity h)

/-- The bit CALC_PARITY writes, with the other 31 bits selected by the mask of 40_codec.md rule R98. -/
theorem calcParity_bit_iff (h : Word) :
    (calcParity h).getLsbD 0 = true ↔ popcount (h &&& 0xFFFFFFFE#32) % 2 = 0 := by
  rw [calcParity_bit, clearParity_eq, decide_eq_true_iff]

/-- Settles O1: each field of the header ENCODE answers, and its parity. -/
theorem encodeBuildsTheHeader : Obligations.EncodeBuildsTheHeader := fun l a m d w s =>
  ⟨s.answer (.header (encodeHeader l a m d w)), encodeHeader l a m d w, rfl, rfl, getField_length_encodeHeader ..,
    getField_address_encodeHeader .., getField_memmap_encodeHeader .., getField_aid_encodeHeader ..,
    getField_wnr_encodeHeader .., getField_hdrb_encodeHeader .., getField_reserved_encodeHeader ..,
    oddParity_encodeHeader ..⟩

/-- Settles O2: the bits CALC_PARITY keeps, the bit it writes, and that a word of odd parity is its own CALC_PARITY. -/
theorem calcParityMakesTheCountOdd : Obligations.CalcParityMakesTheCountOdd := by
  intro h s
  refine ⟨s.answer (.header (calcParity h)), calcParity h, rfl, rfl, calcParity_getLsbD h, calcParity_bit_iff h,
    popcount_calcParity h, (s.answer (.header (calcParity h))).answer (.header (calcParity (calcParity h))), rfl, ?_⟩
  rw [State.answer_codecOut, calcParity_calcParity]

/-- Settles O3: ENCODE ends with CALC_PARITY, whose result has odd parity. -/
theorem parityLawHolds : Obligations.ParityLawHolds :=
  ⟨fun h s => ⟨s.answer (.header (calcParity h)), _, rfl, rfl, popcount_calcParity h⟩,
    fun l a m d w s => ⟨s.answer (.header (encodeHeader l a m d w)), _, rfl, rfl, popcount_calcParity _⟩⟩

/-! ### TO_BYTES and FROM_BYTES (40_codec.md rules R99, R100 and R102) -/

/-- The bits of the four bytes of a word, the most significant byte first. -/
theorem be32_getLsbD {h : Word} {b0 b1 b2 b3 : Byte} (hb : be32 h = [b0, b1, b2, b3]) {i : Nat} (hi : i < 8) :
    b0.getLsbD i = h.getLsbD (24 + i) ∧ b1.getLsbD i = h.getLsbD (16 + i) ∧ b2.getLsbD i = h.getLsbD (8 + i) ∧
      b3.getLsbD i = h.getLsbD i := by
  cases hb
  simp [hi]

/-- Settles O4: TO_BYTES answers `be32` of the header, whose bits are known byte by byte. -/
theorem toBytesIsBigEndian : Obligations.ToBytesIsBigEndian := fun h s =>
  ⟨s.answer (.bytes (be32 h)), _, _, _, _, rfl, rfl, fun _ hi => be32_getLsbD rfl hi⟩

/-- Settles O5: the bytes of the word assembled are the four bytes, so its bits are theirs. -/
theorem fromBytesIsBigEndian : Obligations.FromBytesIsBigEndian := by
  intro b0 b1 b2 b3 s
  refine ⟨s.answer (.header (unbe32 b0 b1 b2 b3)), _, rfl, rfl, fun i hi => ?_⟩
  obtain ⟨h0, h1, h2, h3⟩ := be32_getLsbD (be32_unbe32 b0 b1 b2 b3) hi
  exact ⟨h0.symm, h1.symm, h2.symm, h3.symm⟩

/-- Settles O6: the second call answers the operand of the first. -/
theorem bytesRoundTrip : Obligations.BytesRoundTrip := by
  constructor
  · intro h s
    exact ⟨s.answer (.bytes (be32 h)), (s.answer (.bytes (be32 h))).answer (.header _), _, _, _, _, rfl, rfl, rfl,
      congrArg CodecOut.header (unbe32_be32 h)⟩
  · intro b0 b1 b2 b3 s
    exact ⟨s.answer (.header (unbe32 b0 b1 b2 b3)),
      (s.answer (.header (unbe32 b0 b1 b2 b3))).answer (.bytes (be32 (unbe32 b0 b1 b2 b3))), _, rfl, rfl, rfl,
      congrArg CodecOut.bytes (be32_unbe32 b0 b1 b2 b3)⟩

/-! ### The getters and HDR_OK (40_codec.md rules R101 and R104 to R111) -/

theorem getField_getLsbD_of_lt (f : Field) (h : Word) {i : Nat} (hi : i < fieldWidth f) :
    (getField f h).getLsbD i = h.getLsbD (fieldShift f + i) := by
  rw [getField_getLsbD, decide_eq_true hi, Bool.true_and]

theorem bit_beq_zero (v : BitVec 1) : (v == 0) = !v.getLsbD 0 := by
  rcases bit_cases v with rfl | rfl <;> rfl

theorem headerOk_eq (h : Word) : headerOk h = !h.getLsbD 30 := by
  rw [headerOk, bit_beq_zero, getField_getLsbD_of_lt .hdrb h Nat.one_pos]
  rfl

/-- Settles O7: the one bit of the field `hdrb` is bit 30. -/
theorem hdrOkTestsHdrbAlone : Obligations.HdrOkTestsHdrbAlone := fun h s =>
  ⟨s.answer (.bool (headerOk h)), rfl, congrArg CodecOut.bool (headerOk_eq h)⟩

/-- Settles O8: each getter answers its field, whose bits start at the field's shift. -/
theorem gettersReadTheirField : Obligations.GettersReadTheirField := by
  intro h s
  refine ⟨⟨_, getField .parity h, rfl, rfl, ?_⟩, ⟨_, getField .length h, rfl, rfl, ?_⟩,
    ⟨_, getField .address h, rfl, rfl, ?_⟩, ⟨_, getField .memmap h, rfl, rfl, ?_⟩,
    ⟨_, getField .aid h, rfl, rfl, ?_⟩, ⟨_, getField .wnr h, rfl, rfl, ?_⟩,
    ⟨_, getField .hdrb h, rfl, rfl, ?_⟩, ⟨_, getField .reserved h, rfl, rfl, ?_⟩⟩
  · exact getField_getLsbD_of_lt .parity h Nat.one_pos
  · exact fun _ hi => getField_getLsbD_of_lt .length h hi
  · exact fun _ hi => getField_getLsbD_of_lt .address h hi
  · exact fun _ hi => getField_getLsbD_of_lt .memmap h hi
  · exact getField_getLsbD_of_lt .aid h Nat.one_pos
  · exact getField_getLsbD_of_lt .wnr h Nat.one_pos
  · exact getField_getLsbD_of_lt .hdrb h Nat.one_pos
  · exact getField_getLsbD_of_lt .reserved h Nat.one_pos

/-! ### The setters (40_codec.md rules R112 to R119) -/

theorem exec_setterOf (f : Field) (h : Word) (v : Nat) (s : State) :
    exec (setterOf f h v) s = .next (s.answer (.header (insField f h v))) := by cases f <;> rfl

/-- Replacing a one-bit field writes one bit. -/
theorem insField_getLsbD_bit {f : Field} (hw : fieldWidth f = 1) (h : Word) (v i : Nat) :
    (insField f h v).getLsbD i = if i = fieldShift f then v.testBit 0 else h.getLsbD i := by
  have hone : fieldShift f ≤ i ∧ i < fieldShift f + fieldWidth f ↔ i = fieldShift f := by omega
  rw [insField_getLsbD]
  by_cases hi : i = fieldShift f
  · rw [if_pos (hone.mpr hi), if_pos hi, hi, Nat.sub_self]
  · rw [if_neg (mt hone.mp hi), if_neg hi]

/-- Settles O9: each setter answers the word with its field replaced, given bit by bit. -/
theorem settersReplaceTheirField : Obligations.SettersReplaceTheirField := by
  intro h v s
  exact ⟨⟨_, _, exec_setterOf .parity h v s, rfl, insField_getLsbD_bit rfl h v⟩,
    ⟨_, _, exec_setterOf .length h v s, rfl, insField_getLsbD .length h v⟩,
    ⟨_, _, exec_setterOf .address h v s, rfl, insField_getLsbD .address h v⟩,
    ⟨_, _, exec_setterOf .memmap h v s, rfl, insField_getLsbD .memmap h v⟩,
    ⟨_, _, exec_setterOf .aid h v s, rfl, insField_getLsbD_bit rfl h v⟩,
    ⟨_, _, exec_setterOf .wnr h v s, rfl, insField_getLsbD_bit rfl h v⟩,
    ⟨_, _, exec_setterOf .hdrb h v s, rfl, insField_getLsbD_bit rfl h v⟩,
    ⟨_, _, exec_setterOf .reserved h v s, rfl, insField_getLsbD_bit rfl h v⟩⟩

/-! ### The laws of field access (40_codec.md rule R122) -/

theorem insField_getLsbD_inside (f : Field) (h : Word) (v : Nat) {i : Nat} (hi : i < fieldWidth f) :
    (insField f h v).getLsbD (fieldShift f + i) = v.testBit i := by
  rw [insField_getLsbD, if_pos (by omega), Nat.add_sub_cancel_left]

theorem insField_getLsbD_outside (f : Field) (h : Word) (v : Nat) {i : Nat}
    (hi : ¬(fieldShift f ≤ i ∧ i < fieldShift f + fieldWidth f)) : (insField f h v).getLsbD i = h.getLsbD i := by
  rw [insField_getLsbD, if_neg hi]

theorem getField_insField_same (f : Field) (h : Word) (v : Nat) :
    getField f (insField f h v) = BitVec.ofNat (fieldWidth f) v :=
  getField_ext fun i hi => by
    rw [insField_getLsbD_inside f h v hi, BitVec.getLsbD_ofNat, decide_eq_true hi, Bool.true_and]

theorem getField_insField_other {f g : Field} (h : Word) (v : Nat) (hfg : f ≠ g) :
    getField g (insField f h v) = getField g h :=
  getField_ext fun i hi => by
    have hdisj := fields_disjoint f g hfg
    rw [insField_getLsbD_outside f h v (by omega), getField_getLsbD_of_lt g h hi]

theorem insField_insField_same (f : Field) (h : Word) (u v : Nat) :
    insField f (insField f h v) u = insField f h u :=
  BitVec.eq_of_getLsbD_eq fun i _ => by
    simp only [insField_getLsbD]
    split <;> rfl

theorem insField_comm {f g : Field} (h : Word) (u v : Nat) (hfg : f ≠ g) :
    insField f (insField g h u) v = insField g (insField f h v) u :=
  BitVec.eq_of_getLsbD_eq fun i _ => by
    have hdisj := fields_disjoint f g hfg
    by_cases hf : fieldShift f ≤ i ∧ i < fieldShift f + fieldWidth f
    · have hg : ¬(fieldShift g ≤ i ∧ i < fieldShift g + fieldWidth g) := by omega
      simp only [insField_getLsbD, if_pos hf, if_neg hg]
    · simp only [insField_getLsbD, if_neg hf]

theorem insField_getField (f : Field) (h : Word) : insField f h (getField f h).toNat = h :=
  BitVec.eq_of_getLsbD_eq fun i _ => by
    rw [insField_getLsbD]
    split
    next hi => rw [BitVec.testBit_toNat, getField_getLsbD_of_lt f h (by omega), Nat.add_sub_cancel' hi.1]
    next => rfl

/-- Where the field's bits are 0, inserting a value is placing it. -/
theorem insField_of_clear {f : Field} {h : Word} (hc : h &&& fieldMask f = 0#32) (v : Nat) :
    insField f h v = h ||| placeField f v := by
  have hkeep : h &&& ~~~(fieldMask f) = h := by
    refine BitVec.eq_of_getLsbD_eq fun i hi => ?_
    have hbit : (h.getLsbD i && (fieldMask f).getLsbD i) = false := by
      rw [← BitVec.getLsbD_and, hc, BitVec.getLsbD_zero]
    rw [BitVec.getLsbD_and, BitVec.getLsbD_not, decide_eq_true hi, Bool.true_and]
    cases hh : h.getLsbD i with
    | false => rfl
    | true => simpa [hh] using hbit
  rw [insField, hkeep]

/-- A placed field has no bit in another field. -/
theorem placeField_and_fieldMask {f g : Field} (hfg : f ≠ g) (v : Nat) : placeField f v &&& fieldMask g = 0#32 :=
  BitVec.eq_of_getLsbD_eq fun i _ => by
    have hdisj := fields_disjoint f g hfg
    rw [BitVec.getLsbD_and, placeField_getLsbD, fieldMask_getLsbD, BitVec.getLsbD_zero]
    by_cases hf : fieldShift f ≤ i ∧ i < fieldShift f + fieldWidth f
    · rw [decide_eq_false (p := fieldShift g ≤ i ∧ i < fieldShift g + fieldWidth g) (by omega), Bool.and_false]
    · rw [decide_eq_false hf, Bool.false_and, Bool.false_and]

/-- Each insertion of ENCODE finds its field still clear, so the five insertions into 0 place the five operands. -/
theorem encodeHeader_eq_insField (l a m : Nat) (d w : BitVec 1) :
    encodeHeader l a m d w =
      calcParity (insField .wnr (insField .aid (insField .memmap (insField .address (insField .length 0 l) a) m)
        d.toNat) w.toNat) := by
  simp [encodeHeader, insField_of_clear, BitVec.and_or_distrib_right, placeField_and_fieldMask]

/-- Settles O10: the laws above, and the header packed from its eight fields. -/
theorem fieldAccessLaws : Obligations.FieldAccessLaws :=
  ⟨getField_insField_same, fun _ _ => getField_insField_other, insField_insField_same, fun _ _ => insField_comm,
    insField_getField, fun h => (packHeader_getField h).symm, encodeHeader_eq_insField⟩

/-! ### The parity a setter leaves (40_codec.md rule R121) -/

/-- The parity of the count of ones is additive over XOR. -/
theorem popcountBelow_xor (n : Nat) (g h : Word) :
    popcountBelow n (g ^^^ h) % 2 = (popcountBelow n g + popcountBelow n h) % 2 := by
  induction n with
  | zero => rfl
  | succ n ih =>
    simp only [popcountBelow, BitVec.getLsbD_xor]
    cases g.getLsbD n <;> cases h.getLsbD n <;> simp <;> omega

theorem popcount_xor (g h : Word) : popcount (g ^^^ h) % 2 = (popcount g + popcount h) % 2 := popcountBelow_xor 32 g h

/-- The bits a setter changes are all in its field. -/
theorem insField_xor_and_fieldMask (f : Field) (h : Word) (v : Nat) :
    (insField f h v ^^^ h) &&& fieldMask f = insField f h v ^^^ h :=
  BitVec.eq_of_getLsbD_eq fun i _ => by
    rw [BitVec.getLsbD_and, BitVec.getLsbD_xor, fieldMask_getLsbD]
    by_cases hi : fieldShift f ≤ i ∧ i < fieldShift f + fieldWidth f
    · rw [decide_eq_true hi, Bool.and_true]
    · rw [insField_getLsbD_outside f h v hi, Bool.xor_self, Bool.false_and]

/-- After a setter on a word of odd parity, the parity is odd exactly when an even number of bits changed. -/
theorem popcount_insField_iff {h : Word} (ho : popcount h % 2 = 1) (f : Field) (v : Nat) :
    popcount (insField f h v) % 2 = 1 ↔ popcount (insField f h v ^^^ h) % 2 = 0 := by
  rw [popcount_xor]
  omega

/-- A change inside a one-bit field is a change of one bit. -/
theorem popcount_and_fieldMask_bit {f : Field} (hw : fieldWidth f = 1) {x : Word} (hx : x &&& fieldMask f ≠ 0#32) :
    popcount (x &&& fieldMask f) = 1 := by
  obtain ⟨hmask, hcount⟩ : fieldMask f = BitVec.twoPow 32 (fieldShift f) ∧ popcount (fieldMask f) = 1 := by
    cases f <;> revert hw <;> decide
  rw [hmask, BitVec.and_twoPow] at hx ⊢
  split at hx
  next hbit => rw [if_pos hbit, ← hmask, hcount]
  next => exact absurd rfl hx

/-- Settles O11: the setter's result differs from a word of odd parity in bits of the field only, so the count of the
changed bits decides. -/
theorem settersDoNotMaintainParity : Obligations.SettersDoNotMaintainParity := by
  intro f h v s _
  have hodd := popcount_insField_iff (popcount_calcParity h) f v
  have hmask := insField_xor_and_fieldMask f (calcParity h) v
  refine ⟨_, insField f (calcParity h) v, _, _, exec_setterOf f (calcParity h) v s, rfl, ?_, fun hf hne => ?_, rfl,
    rfl, popcount_calcParity _⟩
  · rw [hmask]
    exact hodd
  · have hw : fieldWidth f = 1 := by rcases hf with rfl | rfl | rfl | rfl <;> rfl
    have hone : popcount (insField f (calcParity h) v ^^^ calcParity h) = 1 := by
      rw [← hmask]
      exact popcount_and_fieldMask_bit hw (by rwa [hmask, Ne, BitVec.xor_eq_zero_iff])
    omega

end Sys2Proof.Machine
end

/-! PROOFS. The statements about 41_engine.md: the engine's operations, each step of the sequencer, and whole
transactions, run step by step and compared with the atomic exchange and with `execute`. -/

namespace Sys2Proof.Machine

/-! ### CONSTRUCT (41_engine.md rule R124) -/

theorem exec_construct_of_not_owned {s : State} (ho : s.owned = false) :
    exec .construct s = .next s.takeTransport := by
  simp [exec, execConstruct, ho]

/-- Settles O16: OWNED is what CONSTRUCT tests. -/
theorem secondConstructIsRefused : Obligations.SecondConstructIsRefused := fun _ ho => if_pos ho

/-- Settles O14: an engine that owns no transport takes it. -/
theorem constructTakesTheTransport : Obligations.ConstructTakesTheTransport := fun s ho =>
  ⟨s.takeTransport, exec_construct_of_not_owned ho, rfl, rfl, rfl, rfl⟩

/-- Settles O15: CONSTRUCT answers only where OWNED is 0, and then with the transport taken. -/
theorem constructFrame : Obligations.ConstructFrame := by
  intro s t h
  cases ho : s.owned with
  | true => rw [secondConstructIsRefused s ho] at h; cases h
  | false => rw [exec_construct_of_not_owned ho] at h; cases h; rfl

/-! ### The five commands at the port (41_engine.md rules R125, R129 and R147) -/

/-- Step ACCEPT for a command of the instruction `i` (41_engine.md rule R129). -/
def State.acceptCommand (s : State) (i : Instr) (c : Command) : State :=
  s.accept c.op c.address c.memmap (lenOfCount c.registers) c.payload (isConvenience i)

section
variable {i : Instr} {c : Command} (hc : commandOf i = some c)
include hc

/-- What each of the five commands does: it is offered at the port if it is admitted, and refused if it is not. -/
theorem exec_command (s : State) :
    exec i s = if c.admitted then offerCommand s (s.acceptCommand i c) else .refused .notAdmitted := by
  cases i with
  | execRead | execWrite | getIdver | getPhyid | getCapability => cases hc; rfl
  | _ => cases hc

theorem exec_command_not_admitted (ha : c.admitted = false) (s : State) : exec i s = .refused .notAdmitted := by
  rw [exec_command hc, ha]
  rfl

/-- A ready engine accepts an admitted command. -/
theorem exec_command_of_ready (ha : c.admitted = true) {s : State} (ho : s.owned = true) (hp : s.phase = .idle) :
    exec i s = .next (s.acceptCommand i c) := by
  rw [exec_command hc, if_pos ha, offerCommand_of_ready ho hp]

/-- The command accepted is an admitted one. -/
theorem exec_command_next {s t : State} (ho : s.owned = true) (hp : s.phase = .idle) (h : exec i s = .next t) :
    t = s.acceptCommand i c := by
  cases ha : c.admitted with
  | true => rw [exec_command_of_ready hc ha ho hp] at h; cases h; rfl
  | false => rw [exec_command_not_admitted hc ha] at h; cases h

end

theorem Command.admitted_read_iff (a : BitVec 16) (m : BitVec 4) (n : Nat) :
    Command.admitted ⟨0, a, m, n, []⟩ = true ↔ 1 ≤ n ∧ n ≤ 128 := admitsRead_iff n

theorem Command.admitted_write_iff (a : BitVec 16) (m : BitVec 4) (n : Nat) (ws : List Word) :
    Command.admitted ⟨1, a, m, n, ws⟩ = true ↔ (1 ≤ n ∧ n ≤ 128) ∧ ws.length = n := admitsWrite_iff n ws

/-- An admitted command has 1 to 128 registers, and a write as many words (41_engine.md rule R125). -/
theorem Command.admitted_bounds {c : Command} (ha : c.admitted = true) :
    1 ≤ c.registers ∧ c.registers ≤ 128 ∧ (c.op = 1 → c.payload.length = c.registers) := by
  unfold Command.admitted at ha
  split at ha
  next => obtain ⟨⟨h1, h2⟩, hl⟩ := (admitsWrite_iff _ _).mp ha; exact ⟨h1, h2, fun _ => hl⟩
  next ho => obtain ⟨h1, h2⟩ := (admitsRead_iff _).mp ha; exact ⟨h1, h2, fun h => absurd h ho⟩

/-- Settles O17: ACCEPT latches the operands and clears DONE, so that no result can be read. -/
theorem commandIsAccepted : Obligations.CommandIsAccepted := by
  intro a m n s ho hp h1 h2
  have hlen : (lenOfCount n).toNat = n - 1 := lenOfCount_toNat n h2
  constructor
  · have ha := (Command.admitted_read_iff a m n).mpr ⟨h1, h2⟩
    exact ⟨_, exec_command_of_ready rfl ha ho hp, rfl, rfl, rfl, hlen, rfl, rfl,
      (State.no_result_of_not_done rfl).1⟩
  · intro ws hws
    have ha := (Command.admitted_write_iff a m n ws).mpr ⟨⟨h1, h2⟩, hws⟩
    exact ⟨_, exec_command_of_ready rfl ha ho hp, rfl, rfl, rfl, hlen, rfl, rfl, rfl,
      (State.no_result_of_not_done rfl).1⟩

/-- Settles O18: the state a ready engine answers is the one with the command accepted. -/
theorem acceptFrame : Obligations.AcceptFrame := by
  intro i c s t hc ho hp h
  obtain rfl := exec_command_next hc ho hp h
  simp [State.acceptCommand]

/-- Settles O19: an engine that is not ready leaves the command at the port. -/
theorem commandWaitsWhileNotReady : Obligations.CommandWaitsWhileNotReady := by
  intro i c s hc ha hn
  have hready : ¬ s.cmdReady = true := fun h => by
    obtain ⟨ho, hp⟩ := (State.cmdReady_iff s).mp h
    rcases hn with hn | hn
    · simp [ho] at hn
    · exact hn hp
  rw [exec_command hc, if_pos ha, offerCommand, if_neg hready]

/-- Settles O20: such a command is not admitted. -/
theorem inadmissibleCommandIsRefused : Obligations.InadmissibleCommandIsRefused := by
  constructor
  · intro a m n s hn
    refine exec_command_not_admitted rfl (Bool.eq_false_iff.mpr fun ha => ?_) s
    obtain ⟨h1, h2⟩ := (Command.admitted_read_iff a m n).mp ha
    omega
  · intro a m n ws s hn
    refine exec_command_not_admitted rfl (Bool.eq_false_iff.mpr fun ha => ?_) s
    obtain ⟨⟨h1, h2⟩, hl⟩ := (Command.admitted_write_iff a m n ws).mp ha
    omega

/-! ### Steps ENCODE and FRAME (41_engine.md rules R130 and R131) -/

/-- Settles O22: the codec's ENCODE gives each latch back from its field. -/
theorem encodeStepBuildsTheHeader : Obligations.EncodeStepBuildsTheHeader := fun s hp hb =>
  ⟨s.buildHeader.hdr, step_encode hp hb,
    (getField_length_encodeHeader ..).trans (by simp),
    (getField_address_encodeHeader ..).trans (by simp),
    (getField_memmap_encodeHeader ..).trans (by simp),
    getField_aid_encodeHeader .., getField_wnr_encodeHeader .., getField_hdrb_encodeHeader ..,
    getField_reserved_encodeHeader .., popcount_calcParity _⟩

/-- The state step FRAME leaves: the frame of header `h` and payload `ws` in the buffer, the exchange entered. -/
def State.framed (s : State) (h : Word) (ws : List Word) : State :=
  (s.withBuffer (Memory.writeList [] 0 (frameBytes h ws))).enterExchange

section
variable {s : State} (hp : s.phase = .encode) (hb : s.hdrBuilt = true)
include hp hb

/-- FRAME of a read fills the payload slot with zeros. -/
theorem frameRead_of_built (h : Word) : frameRead h s = .next (s.framed h (List.replicate s.count 0)) := by
  rw [frameRead, if_pos ⟨hp, hb⟩, s.frame_ok h _ List.length_replicate]
  rfl

/-- FRAME of a write fills the payload slot with WDATA. -/
theorem frameWrite_of_built (hw : s.wdata.length = s.count) (h : Word) :
    frameWrite h s = .next (s.framed h s.wdata) := by
  rw [frameWrite, if_pos ⟨hp, hb⟩, if_pos hw.ge, List.take_of_length_le hw.le, s.frame_ok h _ hw]
  rfl

end

/-- FRAME writes the buffer, PHASE and BIDX only. -/
theorem State.framed_eq (s : State) (h : Word) (ws : List Word) :
    s.framed h ws = { s with tb := (s.framed h ws).tb, phase := .exchange, bidx := 0 } := rfl

section
variable {s : State} (h : Word) {ws : List Word} (hw : ws.length = s.count) (k : Nat)

theorem State.framed_tb : (s.framed h ws).tb = Memory.writeList [] 0 (frameBytes h ws) := rfl

include hw

/-- Inside the frame the buffer reads the frame's bytes. -/
theorem State.read_framed (hk : k < s.frameLen) : Memory.read (s.framed h ws).tb k = (frameBytes h ws)[k]? := by
  rw [State.framed_tb, Memory.read_frame, if_pos (by rw [hw, ← s.frameLen_eq]; exact hk)]

theorem State.read_framed_outside (hk : s.frameLen ≤ k) : Memory.read (s.framed h ws).tb k = none := by
  rw [State.framed_tb, Memory.read_frame, if_neg (by rw [hw, ← s.frameLen_eq]; exact hk.not_gt)]

theorem State.read_framed_header (hk : k < 4) :
    Memory.read (s.framed h ws).tb k = some (h.extractLsb' (24 - 8 * k) 8) := by
  have hl := s.frameLen_eq
  rw [State.read_framed h hw k (by omega), frameBytes_header h ws k hk]

theorem State.read_framed_echo (h4 : 4 ≤ k) (h8 : k < 8) : Memory.read (s.framed h ws).tb k = some 0 := by
  have hl := s.frameLen_eq
  rw [State.read_framed h hw k (by omega), frameBytes_echo h ws k h4 h8]

theorem State.read_framed_payload {w : Word} (hk : ws[k]? = some w) {j : Nat} (hj : j < 4) :
    Memory.read (s.framed h ws).tb (8 + 4 * k + j) = some (w.extractLsb' (24 - 8 * j) 8) := by
  have hl := s.frameLen_eq
  have hlt : k < ws.length := (List.getElem?_eq_some_iff.mp hk).1
  rw [State.read_framed h hw _ (by omega), frameBytes_payload h ws k j hj, hk, Option.map_some]

end

/-- The payload slot of a read's frame holds zeros. -/
theorem State.read_framed_zeros (s : State) (h : Word) {k : Nat} (h4 : 4 ≤ k) (hk : k < s.frameLen) :
    Memory.read (s.framed h (List.replicate s.count 0)).tb k = some 0 := by
  have hl := s.frameLen_eq
  by_cases h8 : k < 8
  · exact State.read_framed_echo h List.length_replicate k h4 h8
  · obtain ⟨n, j, hj, rfl⟩ : ∃ n j, j < 4 ∧ k = 8 + 4 * n + j :=
      ⟨(k - 8) / 4, (k - 8) % 4, Nat.mod_lt _ (by decide), by omega⟩
    have hn : (List.replicate s.count (0 : Word))[n]? = some 0 :=
      List.getElem?_replicate_of_lt (by omega)
    rw [State.read_framed_payload h List.length_replicate n hn hj]
    simp

/-- Settles O25: both read words are framed by `frameRead`, both write words by `frameWrite`. -/
theorem headersAreFramed : Obligations.HeadersAreFramed := by
  constructor
  · intro p l a m d i h s hi hp hb
    have hexec : exec i s = frameRead h s := by rcases hi with ⟨rfl, rfl⟩ | ⟨rfl, rfl⟩ <;> rfl
    have hz : (List.replicate s.count (0 : Word)).length = s.count := List.length_replicate
    rw [hexec, frameRead_of_built hp hb h, State.framed_eq]
    exact ⟨_, rfl, State.read_framed_header h hz,
      fun _ => s.read_framed_zeros h, State.read_framed_outside h hz⟩
  · intro p l a m d i h s hi hp hb hw
    have hexec : exec i s = frameWrite h s := by rcases hi with ⟨rfl, rfl⟩ | ⟨rfl, rfl⟩ <;> rfl
    rw [hexec, frameWrite_of_built hp hb hw h, State.framed_eq]
    exact ⟨_, rfl, State.read_framed_header h hw,
      State.read_framed_echo h hw, fun k _ hk _ => State.read_framed_payload h hw k hk,
      State.read_framed_outside h hw⟩

/-- Settles O26: each wire word first tests the position of its step. -/
theorem wireWordsStopOffSequence : Obligations.WireWordsStopOffSequence := by
  constructor
  · intro p l a m d s h
    have hoff : ¬ (s.phase = .encode ∧ s.hdrBuilt = true) := fun ⟨hp, hb⟩ => by simp [hp, hb] at h
    exact ⟨if_neg hoff, if_neg hoff, if_neg hoff, if_neg hoff⟩
  · intro p l a m d w r s h
    exact ⟨if_neg h, if_neg h⟩

/-! ### Step EXCHANGE (41_engine.md rules R134, R135 and R148) -/

section
variable {s : State} {rest : List LineEvent}

/-- The byte step that takes a received byte. -/
theorem step_byte_go {x r : Byte} (hp : s.phase = .exchange) (hi : s.bidx.toNat < s.frameLen)
    (hx : Memory.read s.tb s.bidx.toNat = some x) (hl : s.line = .go r :: rest) :
    step s = .next ((({ s with line := rest } : State).putOnLine x).exchangeByte r) := by
  rw [step_byte hp hi hx, byteStep, State.nextAnswer_cons hl, State.useAnswer_cons hl]

/-- The byte step in which the transport fails: the byte was on the line. -/
theorem step_byte_fail {x : Byte} (hp : s.phase = .exchange) (hi : s.bidx.toNat < s.frameLen)
    (hx : Memory.read s.tb s.bidx.toNat = some x) (hl : s.line = .fail :: rest) :
    step s = .next ((({ s with line := rest } : State).putOnLine x).raise .ioError) := by
  rw [step_byte hp hi hx, byteStep, State.nextAnswer_cons hl, State.useAnswer_cons hl]

theorem step_final_go {r : Byte} (hp : s.phase = .exchange) (hi : s.bidx.toNat = s.frameLen)
    (hl : s.line = .go r :: rest) : step s = .next ({ s with line := rest } : State).enterValidate := by
  rw [step_final hp hi, finalStep, State.nextAnswer_cons hl, State.useAnswer_cons hl]

theorem step_final_fail (hp : s.phase = .exchange) (hi : s.bidx.toNat = s.frameLen) (hl : s.line = .fail :: rest) :
    step s = .next (({ s with line := rest } : State).raise .ioError) := by
  rw [step_final hp hi, finalStep, State.nextAnswer_cons hl, State.useAnswer_cons hl]

/-- Settles O30: each answer of the transport, in a byte time and after the last byte. -/
theorem exchangeGoesByteByByte : Obligations.ExchangeGoesByteByByte := by
  intro s rest hp
  refine ⟨fun x hi hx => ⟨fun r hl => ?_, step_byte_fail hp hi hx⟩,
    fun hi => ⟨fun r => step_final_go hp hi, step_final_fail hp hi⟩⟩
  exact ⟨Memory.write s.tb s.bidx.toNat r, step_byte_go hp hi hx hl, State.bidx_succ_toNat hi,
    fun k => Memory.read_write s.tb s.bidx.toNat k r⟩

/-- A step of the exchange is enabled: there is a byte to put on the line, or the whole frame has been exchanged
(41_engine.md rule R134). -/
def State.ExchangeEnabled (s : State) : Prop :=
  s.phase = .exchange ∧
    (s.bidx.toNat < s.frameLen ∧ (Memory.read s.tb s.bidx.toNat).isSome ∨ s.bidx.toNat = s.frameLen)

/-- Without an answer the step only uses up the wait. -/
theorem State.ExchangeEnabled.step_wait (h : s.ExchangeEnabled) (hl : s.line = .wait :: rest) :
    step s = .next { s with line := rest } := by
  obtain ⟨hp, ⟨hi, hx⟩ | hi⟩ := h
  · obtain ⟨x, hx⟩ := Option.isSome_iff_exists.mp hx
    rw [step_byte hp hi hx, byteStep, State.nextAnswer_cons hl, State.useAnswer_cons hl]
  · rw [step_final hp hi, finalStep, State.nextAnswer_cons hl, State.useAnswer_cons hl]

theorem State.ExchangeEnabled.run_waits {k : Nat} (h : s.ExchangeEnabled)
    (hl : s.line = List.replicate k .wait ++ rest) : run k s = .next { s with line := rest } := by
  induction k generalizing s with
  | zero => cases hl; rfl
  | succ k ih =>
    rw [run_succ (h.step_wait hl)]
    exact ih (s := { s with line := List.replicate k .wait ++ rest }) h rfl

/-- Settles O32: the filled frame has a byte at every BIDX below L. -/
theorem silentTransportBlocksTheEngine : Obligations.SilentTransportBlocksTheEngine := by
  constructor
  · intro s rest hp h hl
    exact State.ExchangeEnabled.step_wait ⟨hp, h⟩ hl
  · intro k s rest hp hle hfull hl
    exact State.ExchangeEnabled.run_waits ⟨hp, hle.lt_or_eq.imp_left fun hi => ⟨hi, hfull _ hi⟩⟩ hl

end

/-- Settles O53: of all the cases of a step, a byte and a failure in a byte time write `sent`. -/
theorem busIsUsedInExchangeOnly : Obligations.BusIsUsedInExchangeOnly := by
  intro s t hstep
  cases step_cases hstep with
  | failByte hp hi x hx ht => exact .inr ⟨hp, hi, .inr (by simp [ht]), x, hx, by simp [ht]⟩
  | byte hp hi x r hx ht => exact .inr ⟨hp, hi, .inl (by simp [ht]), x, hx, by simp [ht]⟩
  | stay _ ht | reset _ _ ht | codec _ _ ht | construct _ _ ht | accept _ _ _ _ _ _ _ _ ht | encode _ _ ht
  | frame _ _ _ _ _ ht | wait _ ht | failEnd _ _ ht | exchanged _ _ ht | reject _ _ ht | readDone _ _ _ _ _ ht
  | writeDone _ _ _ ht => exact .inl (by simp [ht])

/-! ### Steps VALIDATE and EXTRACT (41_engine.md rules R136 and R137) -/

/-- Four bytes that hold values are read as a run. -/
theorem Memory.readList_four {m : Memory} {a : Nat} {b0 b1 b2 b3 : Byte} (h0 : Memory.read m a = some b0)
    (h1 : Memory.read m (a + 1) = some b1) (h2 : Memory.read m (a + 2) = some b2)
    (h3 : Memory.read m (a + 3) = some b3) : Memory.readList m a 4 = some [b0, b1, b2, b3] := by
  simp only [Memory.readList, h0, h1, h2, h3]

/-- Settles O33: the three places where the sequencer finds an instruction. -/
theorem stepRunsTheDecodedInstruction : Obligations.StepRunsTheDecodedInstruction := by
  refine ⟨fun s c rest i => step_call, fun s i => step_header, ?_⟩
  intro s i b0 b1 b2 b3 hp h0 h1 h2 h3 hd
  rw [step_echo hp (Memory.readList_four h0 h1 h2 h3), ← Except.ok.inj hd]
  rfl

section
variable {s : State} (hp : s.phase = .validate)
include hp

/-- An accepted read completes with the words of the payload slot. -/
theorem exec_echoAccept_read (p : BitVec 1) (l : BitVec 7) (a : BitVec 16) (m : BitVec 4) (d w r : BitVec 1)
    {bs : List Byte} (ho : s.op = 0) (hbs : Memory.readList s.tb 8 (4 * s.count) = some bs) :
    exec (.echoAccept p l a m d w r) s = .next ((s.latchEcho (packHeader p l a m d w 0 r)).complete (wordsOf bs)) := by
  have hx := (s.latchEcho (packHeader p l a m d w 0 r)).extract_read bs ho hbs
  rw [exec, execEchoAccept, if_pos hp, hx, outcomeOf]

/-- An accepted write completes with RDATA as before. -/
theorem exec_echoAccept_write (p : BitVec 1) (l : BitVec 7) (a : BitVec 16) (m : BitVec 4) (d w r : BitVec 1)
    (ho : s.op = 1) :
    exec (.echoAccept p l a m d w r) s = .next ((s.latchEcho (packHeader p l a m d w 0 r)).complete s.rdata) := by
  have hx := (s.latchEcho (packHeader p l a m d w 0 r)).extract_write ho
  rw [exec, execEchoAccept, if_pos hp, hx, outcomeOf, State.latchEcho_rdata]

variable {b0 b1 b2 b3 : Byte} (hr : Memory.readList s.tb 4 4 = some [b0, b1, b2, b3])
include hr

/-- VALIDATE of an echo whose `hdrb` is 1. -/
theorem step_validate_reject (hb : headerOk (unbe32 b0 b1 b2 b3) = false) :
    step s = .next ((s.latchEcho (unbe32 b0 b1 b2 b3)).raise .headerBadError) := by
  rw [step_echo hp hr]
  rcases decodeReceived_cases (unbe32 b0 b1 b2 b3) with ⟨h0, -⟩ | ⟨-, _, _, _, _, _, _, _, he, hh⟩
  · simp [headerOk, h0] at hb
  · rw [he, exec, execEchoReject, if_pos hp, hh]

/-- VALIDATE and EXTRACT of a read whose echo has `hdrb = 0`. -/
theorem step_validate_read (hb : headerOk (unbe32 b0 b1 b2 b3) = true) (ho : s.op = 0) {bs : List Byte}
    (hbs : Memory.readList s.tb 8 (4 * s.count) = some bs) :
    step s = .next ((s.latchEcho (unbe32 b0 b1 b2 b3)).complete (wordsOf bs)) := by
  rw [step_echo hp hr]
  rcases decodeReceived_cases (unbe32 b0 b1 b2 b3) with ⟨-, _, _, _, _, _, _, _, he, hh⟩ | ⟨h1, -⟩
  · rw [he, exec_echoAccept_read hp _ _ _ _ _ _ _ ho hbs, hh]
  · simp [headerOk, h1] at hb

/-- VALIDATE and EXTRACT of a write whose echo has `hdrb = 0`. -/
theorem step_validate_write (hb : headerOk (unbe32 b0 b1 b2 b3) = true) (ho : s.op = 1) :
    step s = .next ((s.latchEcho (unbe32 b0 b1 b2 b3)).complete s.rdata) := by
  rw [step_echo hp hr]
  rcases decodeReceived_cases (unbe32 b0 b1 b2 b3) with ⟨-, _, _, _, _, _, _, _, he, hh⟩ | ⟨h1, -⟩
  · rw [he, exec_echoAccept_write hp _ _ _ _ _ _ _ ho, hh]
  · simp [headerOk, h1] at hb

end

/-- From FRAME on the payload slot can be read. -/
theorem State.bufferFilled.readList_payload {s : State} (h : s.bufferFilled) :
    ∃ bs, Memory.readList s.tb 8 (4 * s.count) = some bs :=
  Memory.readList_isSome _ _ _ fun j hj => h (8 + j) (by rw [s.frameLen_eq]; omega)

/-- Settles O27: a read delivers the words of the payload slot, whose bytes are those of the slot. -/
theorem acceptedEchoCompletes : Obligations.AcceptedEchoCompletes := by
  intro p l a m d w r s hp
  refine ⟨fun ho hfull => ?_, fun ho => exec_echoAccept_write hp p l a m d w r ho⟩
  obtain ⟨bs, hbs⟩ := hfull.readList_payload
  obtain ⟨hlen, hread⟩ := (Memory.readList_eq_some _ _ _ _).mp hbs
  have hcount : (wordsOf bs).length = s.count := wordsOf_length _ bs hlen
  refine ⟨wordsOf bs, exec_echoAccept_read hp p l a m d w r ho hbs, hcount, fun k v hk j hj => ?_⟩
  have hlt : k < (wordsOf bs).length := (List.getElem?_eq_some_iff.mp hk).1
  rw [Nat.add_assoc, hread (4 * k + j) (by omega), wordsOf_getElem? bs k j v hj hk]

/-- The echo's `hdrb` is bit 6 of its first byte. -/
theorem headerOk_unbe32 (b0 b1 b2 b3 : Byte) : headerOk (unbe32 b0 b1 b2 b3) = !b0.getLsbD 6 := by
  obtain ⟨h0, -⟩ := be32_getLsbD (be32_unbe32 b0 b1 b2 b3) (i := 6) (by decide)
  rw [headerOk, bit_beq_zero, getField_getLsbD_of_lt .hdrb _ (by decide), h0]
  rfl

/-- Settles O29: `hdrb` alone chooses between the error and EXTRACT, which a filled frame lets complete. -/
theorem echoIsValidated : Obligations.EchoIsValidated := by
  intro s b0 b1 b2 b3 hp hfull h0 h1 h2 h3
  have hr := Memory.readList_four h0 h1 h2 h3
  cases hb : b0.getLsbD 6 with
  | true =>
    have hstep := step_validate_reject hp hr (by rw [headerOk_unbe32, hb]; rfl)
    exact ⟨_, hstep, rfl, rfl, rfl, fun _ => ⟨rfl, rfl⟩, nofun⟩
  | false =>
    have hok : headerOk (unbe32 b0 b1 b2 b3) = true := by rw [headerOk_unbe32, hb]; rfl
    rcases bit_cases s.op with ho | ho
    · obtain ⟨bs, hbs⟩ := hfull.readList_payload
      exact ⟨_, step_validate_read hp hr hok ho hbs, rfl, rfl, rfl, nofun, fun _ => rfl⟩
    · exact ⟨_, step_validate_write hp hr hok ho, rfl, rfl, rfl, nofun, fun _ => rfl⟩

/-! ### Runs (41_engine.md rule R138) -/

/-- Some number of steps leads from one state to another. -/
def State.Reaches (s t : State) : Prop := ∃ n, run n s = .next t

namespace State.Reaches
variable {s t u : State}

theorem refl (s : State) : s.Reaches s := ⟨0, run_zero s⟩

theorem of_step (h : step s = .next t) : s.Reaches t := ⟨1, (run_succ h).trans (run_zero t)⟩

theorem trans (hst : s.Reaches t) (htu : t.Reaches u) : s.Reaches u := by
  obtain ⟨m, hm⟩ := hst
  obtain ⟨n, hn⟩ := htu
  exact ⟨m + n, (run_add n hm).trans hn⟩

end State.Reaches

/-! ### The byte-level exchange (41_engine.md rules R133 and R134) -/

/-- A run of bytes is its first byte and the run after it. -/
theorem Memory.readList_succ {m : Memory} {a n : Nat} {bs : List Byte} (h : Memory.readList m a (n + 1) = some bs) :
    ∃ x xs, bs = x :: xs ∧ Memory.read m a = some x ∧ Memory.readList m (a + 1) n = some xs := by
  rw [Memory.readList] at h
  split at h
  next hx hxs => cases h; exact ⟨_, _, rfl, hx, hxs⟩
  next => cases h

/-- A write below a run leaves the run as it was. -/
theorem Memory.readList_write_below (m : Memory) {a b : Nat} (r : Byte) (hab : a < b) (n : Nat) :
    Memory.readList (Memory.write m a r) b n = Memory.readList m b n := by
  induction n generalizing b with
  | zero => rfl
  | succ n ih => rw [Memory.readList, Memory.readList, Memory.read_write_other m a b r hab.ne', ih (by omega)]

/-- A run and the byte after it are a longer run. -/
theorem Memory.readList_snoc {m : Memory} {a n : Nat} {xs : List Byte} {x : Byte}
    (h : Memory.readList m a n = some xs) (hx : Memory.read m (a + n) = some x) :
    Memory.readList m a (n + 1) = some (xs ++ [x]) := by
  obtain ⟨hlen, hread⟩ := (Memory.readList_eq_some _ _ _ _).mp h
  refine (Memory.readList_eq_some _ _ _ _).mpr ⟨by simp [hlen], fun j hj => ?_⟩
  rcases Nat.lt_succ_iff_lt_or_eq.mp hj with hj | rfl
  · rw [hread j hj, List.getElem?_append_left (by omega)]
  · rw [hx, ← hlen, List.getElem?_concat_length]

/-- The state after some bytes of the exchange: `rx` was received from BIDX on, `out` was put on the line, BIDX is `j`
and the transport's answers left are `line`. -/
def State.afterBytes (s : State) (j : BitVec 10) (rx out : List Byte) (line : List LineEvent) : State :=
  { s with tb := Memory.writeList s.tb s.bidx.toNat rx, bidx := j, line := line, sent := s.sent ++ out }

/-- Before the first byte nothing has changed. -/
theorem State.afterBytes_nil (s : State) : s.afterBytes s.bidx [] [] s.line = s := by
  simp only [State.afterBytes, Memory.writeList, List.append_nil]

/-- One byte and then more bytes. -/
theorem State.afterBytes_cons {s : State} (hi : s.bidx.toNat < s.frameLen) (j : BitVec 10) (x r : Byte)
    (rx out : List Byte) (line line' : List LineEvent) :
    ((({ s with line := line' } : State).putOnLine x).exchangeByte r).afterBytes j rx out line =
      s.afterBytes j (r :: rx) (x :: out) line := by
  simp only [State.afterBytes, State.exchangeByte, State.putOnLine, Memory.writeList, State.bidx_succ_toNat hi,
    List.append_assoc, List.singleton_append]

section
variable {s : State} {waits : List Nat} {e : LineEvent} {es rest : List LineEvent}

/-- The waits before the next answer pass. -/
theorem State.ExchangeEnabled.reaches_answer (h : s.ExchangeEnabled) (hl : s.line = delayed waits (e :: es) ++ rest) :
    ∃ ws, s.Reaches { s with line := e :: (delayed ws es ++ rest) } := by
  obtain ⟨w, ws, hw⟩ := delayed_cons waits e es
  rw [hw, List.append_assoc] at hl
  exact ⟨ws, w, h.run_waits hl⟩

/-- One byte time, with the waits before its answer. -/
theorem reaches_byte {x r : Byte} (hp : s.phase = .exchange) (hi : s.bidx.toNat < s.frameLen)
    (hx : Memory.read s.tb s.bidx.toNat = some x) (hl : s.line = delayed waits (.go r :: es) ++ rest) :
    ∃ ws, s.Reaches ((({ s with line := delayed ws es ++ rest } : State).putOnLine x).exchangeByte r) := by
  have henabled : s.ExchangeEnabled := ⟨hp, .inl ⟨hi, by rw [hx]; rfl⟩⟩
  obtain ⟨ws, hwait⟩ := henabled.reaches_answer hl
  exact ⟨ws, hwait.trans (.of_step (step_byte_go hp hi hx rfl))⟩

/-- The byte times of a sequence of received bytes: the bytes put on the line are the ones the buffer held before. -/
theorem reaches_afterBytes (rx : List Byte) {out : List Byte} (hp : s.phase = .exchange)
    (hin : s.bidx.toNat + rx.length ≤ s.frameLen) (hout : Memory.readList s.tb s.bidx.toNat rx.length = some out)
    (hl : s.line = delayed waits (rx.map .go ++ es) ++ rest) :
    ∃ ws j, j.toNat = s.bidx.toNat + rx.length ∧ s.Reaches (s.afterBytes j rx out (delayed ws es ++ rest)) := by
  induction rx generalizing s waits out with
  | nil =>
    cases hout
    refine ⟨waits, s.bidx, rfl, ?_⟩
    change s.line = delayed waits es ++ rest at hl
    rw [← hl, State.afterBytes_nil]
    exact .refl s
  | cons r rx ih =>
    obtain ⟨x, out, rfl, hx, hxs⟩ := Memory.readList_succ hout
    rw [List.length_cons] at hin ⊢
    have hi : s.bidx.toNat < s.frameLen := by omega
    have hn : (s.bidx + 1).toNat = s.bidx.toNat + 1 := State.bidx_succ_toNat hi
    obtain ⟨ws, hbyte⟩ := reaches_byte hp hi hx hl
    have hin' : (s.bidx + 1).toNat + rx.length ≤ s.frameLen := by omega
    have hxs' : Memory.readList (Memory.write s.tb s.bidx.toNat r) (s.bidx + 1).toNat rx.length = some out := by
      rw [hn, Memory.readList_write_below _ _ (Nat.lt_succ_self _), hxs]
    obtain ⟨ws', j, hj, hrest⟩ := ih
      (s := (({ s with line := delayed ws (rx.map .go ++ es) ++ rest } : State).putOnLine x).exchangeByte r)
      hp hin' hxs' rfl
    rw [State.afterBytes_cons hi] at hrest
    rw [State.exchangeByte_bidx] at hj
    exact ⟨ws', j, by rw [hj]; change (s.bidx + 1).toNat + _ = _; omega, hbyte.trans hrest⟩

variable (hp : s.phase = .exchange) (hb : s.bidx = 0) (hfull : s.bufferFilled)
include hp hb hfull

/-- An exchange from the first byte up to the last answer of the transport: after it the bytes received stand in the
buffer, and those it held there have been put on the line. -/
theorem reaches_lastAnswer (rx : List Byte) (hle : rx.length ≤ s.frameLen)
    (hl : s.line = delayed waits (rx.map .go ++ [e]) ++ rest) :
    ∃ j out, j.toNat = rx.length ∧ Memory.readList s.tb 0 rx.length = some out ∧
      s.Reaches (s.afterBytes j rx out (e :: rest)) := by
  have h0 : s.bidx.toNat = 0 := by rw [hb]; rfl
  obtain ⟨out, hout⟩ := Memory.readList_isSome rx.length s.tb 0 fun k hk => hfull (0 + k) (by omega)
  obtain ⟨ws, j, hj, hbytes⟩ := reaches_afterBytes rx hp (by omega) (h0 ▸ hout) hl
  rw [h0, Nat.zero_add] at hj
  have henabled : (s.afterBytes j rx out (delayed ws [e] ++ rest)).ExchangeEnabled := by
    refine ⟨hp, (hj ▸ hle : j.toNat ≤ s.frameLen).lt_or_eq.imp_left fun hi => ⟨hi, ?_⟩⟩
    change (Memory.read (Memory.writeList s.tb s.bidx.toNat rx) j.toNat).isSome
    rw [Memory.read_writeList_other rx s.tb _ _ (.inr (by omega))]
    exact hfull j.toNat hi
  obtain ⟨ws', hwait⟩ := henabled.reaches_answer rfl
  rw [delayed_nil, List.nil_append] at hwait
  exact ⟨j, out, hj, hout, hbytes.trans hwait⟩

/-- The byte steps end where the atomic exchange ends, having put on the line what the buffer held. -/
theorem reaches_exchangeAtomic {answer : Answer} (hfits : answer.fits s.frameLen)
    (hl : s.line = delayed waits answer.events ++ rest) :
    ∃ j out, s.Reaches { s.exchangeAtomic answer with bidx := j, line := rest, sent := s.sent ++ out } ∧
      Memory.readList s.tb 0 (answer.sentCount s.frameLen) = some out := by
  have h0 : s.bidx.toNat = 0 := by rw [hb]; rfl
  cases answer with
  | ok rx =>
    have hlen : rx.length = s.frameLen := hfits
    obtain ⟨j, out, hj, hout, hbytes⟩ := reaches_lastAnswer hp hb hfull rx hlen.le hl
    have hstep := step_final_go (s := s.afterBytes j rx out (.go 0 :: rest)) hp (hj.trans hlen) rfl
    refine ⟨j, out, ?_, hout⟩
    have hend := hbytes.trans (.of_step hstep)
    simpa only [State.exchangeAtomic, State.afterBytes, State.enterValidate, h0] using hend
  | fail early =>
    have hle : early.length ≤ s.frameLen := hfits
    obtain ⟨j, out, hj, hout, hbytes⟩ := reaches_lastAnswer hp hb hfull early hle hl
    rw [Answer.sentCount]
    rcases hle.lt_or_eq with hlt | heq
    · obtain ⟨x, hx⟩ := Option.isSome_iff_exists.mp (hfull early.length hlt)
      have hx' : Memory.read (s.afterBytes j early out (.fail :: rest)).tb j.toNat = some x := by
        change Memory.read (Memory.writeList s.tb s.bidx.toNat early) j.toNat = some x
        rw [Memory.read_writeList_other early s.tb _ _ (.inr (by omega)), hj, hx]
      have hi : j.toNat < s.frameLen := hj ▸ hlt
      have hstep := step_byte_fail (s := s.afterBytes j early out (.fail :: rest)) hp hi hx' rfl
      refine ⟨j, out ++ [x], ?_, ?_⟩
      · rw [← List.append_assoc]
        exact hbytes.trans (.of_step hstep)
      · rw [Nat.min_eq_left hlt]
        exact Memory.readList_snoc hout (by rw [Nat.zero_add, hx])
    · have hstep := step_final_fail (s := s.afterBytes j early out (.fail :: rest)) hp (hj.trans heq) rfl
      refine ⟨j, out, hbytes.trans (.of_step hstep), ?_⟩
      rw [Nat.min_eq_right (by omega), ← heq, hout]

end

/-- Settles O36: the bytes put on the line are a run read from the buffer before the exchange. -/
theorem byteExchangeEqualsAtomicExchange : Obligations.ByteExchangeEqualsAtomicExchange := by
  intro s answer waits rest hp hb hfull hfits hl
  obtain ⟨j, out, ⟨n, hrun⟩, hout⟩ := reaches_exchangeAtomic hp hb hfull hfits hl
  obtain ⟨hlen, hread⟩ := (Memory.readList_eq_some _ _ _ _).mp hout
  refine ⟨n, j, out, hrun, hlen, fun k hk => ?_⟩
  rw [← hread k (hlen ▸ hk), Nat.zero_add]

/-! ### From the command port to the exchange (41_engine.md rules R129 to R131) -/

/-- A built header of the engine is framed with WDATA for a write and with zeros for a read. -/
theorem step_frame {s : State} {l a m : Nat} (hp : s.phase = .encode) (hb : s.hdrBuilt = true)
    (hh : s.hdr = encodeHeader l a m Config.engineAid s.op) (hw : s.op = 1 → s.wdata.length = s.count) :
    step s = .next (s.framed s.hdr (if s.op = 1 then s.wdata else List.replicate s.count 0)) := by
  have hpack := packHeader_getField s.hdr
  have hd := decodeSent_packHeader (getField .parity s.hdr) (getField .length s.hdr) (getField .address s.hdr)
    (getField .memmap s.hdr) 1 s.op
  rw [hh, getField_aid_encodeHeader, getField_wnr_encodeHeader, getField_hdrb_encodeHeader,
    getField_reserved_encodeHeader, ← hh, engineAid_eq] at hpack
  rw [hpack] at hd
  rw [step_header hp hb hd]
  rcases bit_cases s.op with ho | ho <;> rw [ho] at hpack ⊢
  · exact (congrArg (frameRead · s) hpack).trans (frameRead_of_built hp hb s.hdr)
  · exact (congrArg (frameWrite · s) hpack).trans (frameWrite_of_built hp hb (hw ho) s.hdr)

/-- The header of a command (41_engine.md rule R130). -/
def Command.header (c : Command) : Word :=
  encodeHeader (c.registers - 1) c.address.toNat c.memmap.toNat 1 c.op

/-- The words of a command's payload slot (41_engine.md rule R131). -/
def Command.words (c : Command) : List Word := if c.op = 1 then c.payload else List.replicate c.registers 0

theorem Command.transmits_eq (c : Command) : c.transmits = frameBytes c.header c.words := rfl

theorem Command.words_length {c : Command} (ha : c.admitted = true) : c.words.length = c.registers := by
  obtain ⟨-, -, hpay⟩ := Command.admitted_bounds ha
  unfold Command.words
  split
  next ho => exact hpay ho
  next => exact List.length_replicate

theorem Command.transmits_length {c : Command} (ha : c.admitted = true) : c.transmits.length = c.length := by
  rw [c.transmits_eq, frameBytes_length, Command.words_length ha, Command.length]

/-- The state in which the exchange of a command begins. -/
def State.inExchange (s : State) (i : Instr) (c : Command) : State :=
  (s.acceptCommand i c).buildHeader.framed c.header c.words

theorem State.inExchange_tb (s : State) (i : Instr) (c : Command) :
    (s.inExchange i c).tb = Memory.writeList [] 0 c.transmits := rfl

section
variable {s : State} {i : Instr} {c : Command} {later : List Call}

section
variable (ha : c.admitted = true)
include ha

theorem State.acceptCommand_count : (s.acceptCommand i c).count = c.registers := by
  obtain ⟨h1, h2, -⟩ := Command.admitted_bounds ha
  exact count_of_len c.registers h1 h2

theorem State.inExchange_frameLen : (s.inExchange i c).frameLen = c.length :=
  congrArg (8 + 4 * ·) (State.acceptCommand_count (s := s) (i := i) ha)

/-- Step ENCODE builds the command's header from the latches. -/
theorem State.acceptCommand_header : (s.acceptCommand i c).buildHeader.hdr = c.header := by
  obtain ⟨-, h2, -⟩ := Command.admitted_bounds ha
  change encodeHeader (lenOfCount c.registers).toNat c.address.toNat c.memmap.toNat Config.engineAid c.op = _
  rw [lenOfCount_toNat _ h2]
  rfl

theorem State.inExchange_bufferFilled : (s.inExchange i c).bufferFilled := by
  intro k hk
  rw [State.inExchange_frameLen ha, ← Command.transmits_length ha] at hk
  rw [State.inExchange_tb, Memory.read_writeList, if_pos ⟨Nat.zero_le k, by omega⟩]
  simp [hk]

end

/-- A command offered to a ready engine is accepted, its header is built, and its frame is written. -/
theorem State.Offers.reaches_inExchange (hoff : s.Offers i later) (hc : commandOf i = some c)
    (ha : c.admitted = true) : s.Reaches (s.inExchange i c) := by
  obtain ⟨ho, hp, hr, call, hcalls, hd⟩ := hoff
  obtain ⟨-, -, hpay⟩ := Command.admitted_bounds ha
  have hcount := State.acceptCommand_count (s := s) (i := i) ha
  have haccept : step s = .next (s.acceptCommand i c) :=
    (step_call hp hr hcalls hd).trans (exec_command_of_ready hc ha ho hp)
  have hencode : step (s.acceptCommand i c) = .next (s.acceptCommand i c).buildHeader := step_encode rfl rfl
  have hframe := step_frame (s := (s.acceptCommand i c).buildHeader) rfl rfl rfl
    fun h1 => (hpay h1).trans hcount.symm
  have hwords : (if (s.acceptCommand i c).buildHeader.op = 1 then (s.acceptCommand i c).buildHeader.wdata
      else List.replicate (s.acceptCommand i c).buildHeader.count 0) = c.words := by
    rw [State.count_congr (State.buildHeader_len _), hcount]
    rfl
  rw [State.acceptCommand_header ha, hwords] at hframe
  exact .trans (.of_step haccept) (.trans (.of_step hencode) (.of_step hframe))

/-! ### The end of a transaction (41_engine.md rule R137, 60_exceptions.md rule R158) -/

/-- `t` ends the transaction of `s` with the result `r`; nothing more is exchanged. -/
structure State.EndsIn (s t : State) (r : CallResult) : Prop where
  phase : t.phase = .idle
  owned : t.owned = s.owned
  done : t.done = true
  calls : t.calls = s.calls
  line : t.line = s.line
  sent : t.sent = s.sent
  result : t.callResult = .ok r

theorem State.endsIn_raise (s : State) (kind : ErrorKind) : s.EndsIn (s.raise kind) (.err kind) :=
  ⟨rfl, rfl, rfl, rfl, rfl, rfl, by cases kind <;> rfl⟩

theorem State.endsIn_complete_write {s : State} (ho : s.op = 1) (ws : List Word) : s.EndsIn (s.complete ws) .unit :=
  ⟨rfl, rfl, rfl, rfl, rfl, rfl, by simp [State.callResult, ho]⟩

/-- A read's result is its words, unwrapped where the caller asked for the one word. -/
theorem State.endsIn_complete_read {s : State} (ho : s.op = 0) {ws : List Word}
    (hu : s.unwrap = true → ws.length = 1) :
    s.EndsIn (s.complete ws) (if s.unwrap then unwrapResult (.words ws) else .words ws) := by
  refine ⟨rfl, rfl, rfl, rfl, rfl, rfl, ?_⟩
  cases h : s.unwrap with
  | false => simp [State.callResult, ho, h]
  | true =>
    obtain ⟨w, rfl⟩ := List.length_eq_one_iff.mp (hu h)
    simp [State.callResult, ho, h, unwrapResult]

/-- Latching the echo changes nothing a caller sees. -/
theorem State.EndsIn.of_latchEcho {s t : State} {w : Word} {r : CallResult} (h : (s.latchEcho w).EndsIn t r) :
    s.EndsIn t r := { h with }

/-- Unwrapping changes no error. -/
theorem unwrapResult_err (b : Bool) (kind : ErrorKind) :
    (if b then unwrapResult (.err kind) else .err kind) = .err kind := by cases b <;> rfl

/-- Bytes 4 to 7 of a received frame. -/
theorem take_four_drop_four {rx : List Byte} (h : 8 ≤ rx.length) :
    (rx.drop 4).take 4 = [rx.getD 4 0, rx.getD 5 0, rx.getD 6 0, rx.getD 7 0] := by
  refine List.ext_getElem (by simp; omega) fun k hk _ => ?_
  rw [List.length_take] at hk
  rw [List.getElem_take, List.getElem_drop, ← List.getD_eq_getElem rx 0]
  obtain rfl | rfl | rfl | rfl : k = 0 ∨ k = 1 ∨ k = 2 ∨ k = 3 := by omega
  all_goals rfl

/-- VALIDATE and EXTRACT of a whole received frame end the transaction with the result of `execute`. -/
theorem step_received {v : State} {m : Memory} {rx : List Byte} (hp : v.phase = .validate)
    (htb : v.tb = Memory.writeList m 0 rx) (hlen : rx.length = v.frameLen)
    (hu : v.unwrap = true → v.op = 0 ∧ v.count = 1) :
    ∃ t, step v = .next t ∧
      v.EndsIn t (if v.unwrap then unwrapResult (executeResult v.op (.ok rx)) else executeResult v.op (.ok rx)) := by
  have hl := v.frameLen_eq
  have hr : Memory.readList v.tb 4 4 = some [rx.getD 4 0, rx.getD 5 0, rx.getD 6 0, rx.getD 7 0] := by
    rw [htb, Memory.readList_writeList rx m 4 4 (by omega), take_four_drop_four (by omega)]
  have hbs : Memory.readList v.tb 8 (4 * v.count) = some (rx.drop 8) := by
    rw [htb, Memory.readList_writeList rx m 8 _ (by omega), List.take_of_length_le (by simp; omega)]
  cases hok : headerOk (unbe32 (rx.getD 4 0) (rx.getD 5 0) (rx.getD 6 0) (rx.getD 7 0)) with
  | false =>
    refine ⟨_, step_validate_reject hp hr hok, ?_⟩
    simp only [executeResult, hok, Bool.false_eq_true, if_false, unwrapResult_err]
    exact ((v.latchEcho _).endsIn_raise .headerBadError).of_latchEcho
  | true =>
    simp only [executeResult, hok, if_true]
    rcases bit_cases v.op with ho | ho
    · refine ⟨_, step_validate_read hp hr hok ho hbs, ?_⟩
      have hwords : v.unwrap = true → (wordsOf (rx.drop 8)).length = 1 := fun h =>
        wordsOf_length 1 _ (by have := (hu h).2; simp; omega)
      have hne : ¬ v.op = 1 := by rw [ho]; decide
      simp only [hne, if_false]
      exact (State.endsIn_complete_read (s := v.latchEcho (unbe32 ..)) ho hwords).of_latchEcho
    · have hun : v.unwrap = false := Bool.eq_false_iff.mpr fun h => by simp [(hu h).1] at ho
      refine ⟨_, step_validate_write hp hr hok ho, ?_⟩
      simp only [ho, if_true, hun, Bool.false_eq_true, if_false]
      exact (State.endsIn_complete_write (s := v.latchEcho (unbe32 ..)) ho _).of_latchEcho

/-! ### Whole transactions (41_engine.md rules R138 and R152) -/

/-- A convenience read is a read of one register (30_encoding.md rule R88). -/
theorem commandOf_convenience (hc : commandOf i = some c) (hi : isConvenience i = true) :
    c.op = 0 ∧ c.registers = 1 := by
  cases i with
  | getIdver | getPhyid | getCapability => cases hc; exact ⟨rfl, rfl⟩
  | _ => cases hi

theorem callResultOf_fail (i : Instr) (op : BitVec 1) (early : List Byte) :
    callResultOf i op (.fail early) = .err .ioError := unwrapResult_err (isConvenience i) .ioError

theorem Answer.sentCount_le {l : Nat} {answer : Answer} (h : answer.fits l) : answer.sentCount l ≤ l := by
  cases answer with
  | ok rx => exact Nat.le_of_eq h
  | fail early => exact Nat.min_le_right _ _

section
variable {answer : Answer} {waits : List Nat} {rest : List LineEvent}

/-- From the exchange's end, on an outcome of either kind, the transaction reaches the result of `execute`. -/
theorem State.inExchange_endsIn (s : State) (hc : commandOf i = some c) (ha : c.admitted = true)
    (hfits : answer.fits c.length) (j : BitVec 10) (line : List LineEvent) (sent : List Byte) :
    ∃ t, State.Reaches { (s.inExchange i c).exchangeAtomic answer with bidx := j, line := line, sent := sent } t ∧
      State.EndsIn { (s.inExchange i c).exchangeAtomic answer with bidx := j, line := line, sent := sent } t
        (callResultOf i c.op answer) := by
  cases answer with
  | fail early =>
    rw [callResultOf_fail]
    exact ⟨_, .refl _, ⟨rfl, rfl, rfl, rfl, rfl, rfl, rfl⟩⟩
  | ok rx =>
    have hlen : rx.length = (s.inExchange i c).frameLen := by
      rw [State.inExchange_frameLen ha]; exact hfits
    have hu : isConvenience i = true → c.op = 0 ∧ (s.inExchange i c).count = 1 := fun hi => by
      obtain ⟨h0, h1⟩ := commandOf_convenience hc hi
      exact ⟨h0, (State.acceptCommand_count (s := s) (i := i) ha).trans h1⟩
    obtain ⟨t, hstep, hend⟩ := step_received
      (v := { (s.inExchange i c).exchangeAtomic (.ok rx) with bidx := j, line := line, sent := sent })
      rfl rfl hlen hu
    exact ⟨t, .of_step hstep, hend⟩

/-- A whole transaction: the command is framed, the frame is exchanged, and the outcome gives the result. -/
theorem State.Offers.reaches_result (hoff : s.Offers i later) (hc : commandOf i = some c) (ha : c.admitted = true)
    (hfits : answer.fits c.length) (hl : s.line = delayed waits answer.events ++ rest) :
    ∃ t, s.Reaches t ∧ t.phase = .idle ∧ t.owned = true ∧ t.done = true ∧ t.calls = later ∧ t.line = rest ∧
      t.sent = s.sent ++ c.transmits.take (answer.sentCount c.length) ∧
      t.callResult = .ok (callResultOf i c.op answer) := by
  have hlen := State.inExchange_frameLen (s := s) (i := i) ha
  obtain ⟨j, out, hexchange, hout⟩ := reaches_exchangeAtomic (s := s.inExchange i c) rfl rfl
    (State.inExchange_bufferFilled ha) (hlen ▸ hfits) hl
  obtain ⟨t, hreach, hend⟩ := s.inExchange_endsIn hc ha hfits j rest (s.sent ++ out)
  have hsent : out = c.transmits.take (answer.sentCount c.length) := by
    rw [hlen, State.inExchange_tb, Memory.readList_writeList _ _ _ _ (by
      rw [Command.transmits_length ha, Nat.zero_add]; exact Answer.sentCount_le hfits)] at hout
    exact (Option.some.inj hout).symm
  have hreaches := (hoff.reaches_inExchange hc ha).trans (hexchange.trans hreach)
  obtain ⟨ho, -, -, call, hcalls, -⟩ := hoff
  have howned : (State.exchangeAtomic (s.inExchange i c) answer).owned = true := by cases answer <;> exact ho
  have hlater : (State.exchangeAtomic (s.inExchange i c) answer).calls = later := by
    cases answer <;> exact congrArg List.tail hcalls
  exact ⟨t, hreaches, hend.phase, hend.owned.trans howned, hend.done, hend.calls.trans hlater, hend.line,
    hend.sent.trans (by rw [hsent]), hend.result⟩

end

end

/-- Settles O35: the run from the port through the exchange to the result. -/
theorem transactionAgreesWithExecute : Obligations.TransactionAgreesWithExecute := by
  intro s i c later answer waits rest hoff hc ha hfits hl
  obtain ⟨t, ⟨n, hrun⟩, hend⟩ := hoff.reaches_result hc ha hfits hl
  exact ⟨n, t, hrun, hend⟩

/-- Settles O37: the result `execute` gives names only the direction, the outcome and whether the call is a convenience
read, and the bytes sent are a part of the command's TX. -/
theorem transactionsAreDetermined : Obligations.TransactionsAreDetermined := by
  constructor
  · intro s s' i i' c c' later later' answer waits waits' rest rest' hoff hoff' hc hc' ha ha' hop hreg hconv hfits
      hl hl'
    have hfits' : answer.fits c'.length := by rwa [Command.length, ← hreg]
    obtain ⟨t, ⟨n, hrun⟩, -, -, hd, hcalls, -, -, hres⟩ := hoff.reaches_result hc ha hfits hl
    obtain ⟨t', ⟨n', hrun'⟩, -, -, hd', hcalls', -, -, hres'⟩ := hoff'.reaches_result hc' ha' hfits' hl'
    have hsame : callResultOf i c.op answer = callResultOf i' c'.op answer := by
      rw [callResultOf, callResultOf, hop, hconv]
    exact ⟨n, n', t, t', hrun, hrun', hd, hd', hcalls, hcalls', by rw [hres, hres', hsame]⟩
  · intro c ha
    refine ⟨c.transmits, Command.transmits_length ha, fun s i later answer waits rest hoff hc hfits hl => ?_⟩
    obtain ⟨t, ⟨n, hrun⟩, -, -, hd, hcalls, -, hsent, -⟩ := hoff.reaches_result hc ha hfits hl
    exact ⟨n, t, hrun, hd, hcalls, hsent⟩

end Sys2Proof.Machine

/-! PROOFS. The statements about 60_exceptions.md: the two error endings of a transaction, and where a refusal comes
from. -/

namespace Sys2Proof.Machine

/-! ### The error endings (60_exceptions.md rules R155, R158 and R162) -/

/-- A rejected echo is latched and ends the transaction, whatever its other bits are. -/
theorem exec_echoReject {s : State} (hp : s.phase = .validate) (p : BitVec 1) (l : BitVec 7) (a : BitVec 16)
    (m : BitVec 4) (d w r : BitVec 1) :
    exec (.echoReject p l a m d w r) s = .next ((s.latchEcho (packHeader p l a m d w 1 r)).raise .headerBadError) :=
  if_pos hp

/-- Settles O28: latching the echo and raising the error write exactly the elements named. -/
theorem rejectedEchoRaisesHeaderBad : Obligations.RejectedEchoRaisesHeaderBad :=
  fun p l a m d w r _ hp => exec_echoReject hp p l a m d w r

theorem ErrorKind.status_ne_ok (kind : ErrorKind) : kind.status ≠ .ok := by cases kind <;> nofun

/-- After an error the caller's call returns its kind. -/
@[simp] theorem State.callResult_raise (s : State) (kind : ErrorKind) : (s.raise kind).callResult = .ok (.err kind) :=
  (s.endsIn_raise kind).result

/-- After an error the result port shows no word. -/
@[simp] theorem State.rspRdata_raise (s : State) (kind : ErrorKind) (k : Nat) :
    (s.raise kind).rspRdata k = .error .noValue := by
  refine ((s.raise kind).rspRdata_ok_or_noValue k).resolve_left fun ⟨w, hw⟩ => ?_
  obtain ⟨⟨-, hok, -, -⟩, -⟩ := ((s.raise kind).rspRdata_eq_ok_iff k w).mp hw
  exact kind.status_ne_ok hok

/-- Settles O54: of the steps in flight, three end the transaction with an error, each by raising its kind from a state
that differs from `s` in ECHO or on the line only. -/
theorem errorEndingDeliversNoData : Obligations.ErrorEndingDeliversNoData := by
  intro s t hbusy hstep hidle herr
  cases step_cases hstep with
  | stay hp | reset hp | codec hp | construct hp | accept hp => exact absurd hp hbusy
  | encode hp _ ht | frame hp _ _ _ _ ht | wait hp ht | byte hp _ _ _ _ ht | exchanged hp _ ht =>
    -- the transaction goes on
    simp [ht, hp] at hidle
  | readDone _ _ _ _ _ ht | writeDone _ _ _ ht =>
    -- it ends with `Ok`
    simp [ht] at herr
  | failByte hp _ _ _ ht | failEnd hp _ ht | reject hp _ ht => simp [ht, hp, ErrorKind.status]

/-! ### Refusals (60_exceptions.md rules R160 and R173) -/

/-- A call that does not decode is truncated, names no operation, or is no convenience read. -/
theorem decode_call_error {c : Call} {e : DecodeError} (hd : decode (.call c) = .error e) :
    e = .truncatedCall ∨ (∃ o, e = .noSuchOperation o) ∨ ∃ h, e = .noSuchConvenience h := by
  cases c with
  | op bytes =>
    cases bytes with
    | nil => cases hd; exact .inl rfl
    | cons b operands =>
      rcases decodeSelector_error hd with he | ⟨he, -⟩
      · exact .inl he
      · exact .inr (.inl ⟨_, he⟩)
  | convenience h =>
    simp only [decode, decodeConvenience] at hd
    split_ifs at hd
    cases hd
    exact .inr (.inr ⟨h, rfl⟩)

/-- The command port expresses admitted commands only (30_encoding.md rule R80). -/
theorem decode_call_admitted {c : Call} {i : Instr} {k : Command} (hd : decode (.call c) = .ok i)
    (hk : commandOf i = some k) : k.admitted = true := by
  obtain ⟨-, hread, hwrite⟩ := decode_call_ok hd
  cases i with
  | execRead a m n => cases hk; exact hread a m n rfl
  | execWrite a m n ws => cases hk; exact hwrite a m n ws rfl
  | getIdver | getPhyid | getCapability => cases hk; rfl
  | _ => cases hk

/-- A call that decodes is refused only as a second CONSTRUCT: a command is admitted, hence accepted or left waiting. -/
theorem exec_decoded_call_refused {c : Call} {i : Instr} {s : State} {r : Refusal} (hd : decode (.call c) = .ok i)
    (h : exec i s = .refused r) : r = .alreadyConstructed := by
  cases hk : commandOf i with
  | some k =>
    rw [exec_command hk, if_pos (decode_call_admitted hd hk), offerCommand] at h
    split at h <;> cases h
  | none =>
    obtain ⟨hw, -, -⟩ := decode_call_ok hd
    cases i with
    | construct =>
      simp only [exec, execConstruct] at h
      split at h <;> cases h
      rfl
    | execRead | execWrite | getIdver | getPhyid | getCapability => cases hk
    | hdrCtrlRead | hdrCtrlWrite | hdrEngineRead | hdrEngineWrite | echoAccept | echoReject => cases hw
    | _ => cases h

/-- In IDLE a step refuses the oldest call offered: it does not decode, or running it is refused. -/
theorem step_idle_refused {s : State} {r : Refusal} (hp : s.phase = .idle) (h : step s = .refused r) :
    ∃ c rest, s.calls = c :: rest ∧ ((∃ e, decode (.call c) = .error e ∧ r = refusalOf e) ∨
      ∃ i, decode (.call c) = .ok i ∧ exec i s = .refused r) := by
  cases hr : s.resetReq with
  | true => simp [step, hp, hr] at h
  | false =>
    cases hc : s.calls with
    | nil => cases (idleEngineWaits s hp hr hc).symm.trans h
    | cons c rest =>
      refine ⟨c, rest, rfl, ?_⟩
      cases hd : decode (.call c) with
      | error e => cases (step_call_error hp hr hc hd).symm.trans h; exact .inl ⟨e, rfl, rfl⟩
      | ok i => exact .inr ⟨i, rfl, (step_call hp hr hc hd).symm.trans h⟩

/-- Settles O48: in flight every step answers a next state, and in IDLE the call offered is at fault. -/
theorem refusalsComeFromTheCaller : Obligations.RefusalsComeFromTheCaller := by
  intro s r hinv h
  by_cases hp : s.phase = .idle
  · obtain ⟨c, rest, hc, ⟨e, hd, rfl⟩ | ⟨i, hd, hexec⟩⟩ := step_idle_refused hp h
    · refine ⟨hp, by simp [hc], ?_⟩
      rcases decode_call_error hd with rfl | ⟨o, rfl⟩ | ⟨w, rfl⟩
      · exact .inl rfl
      · exact .inr (.inl ⟨o, rfl⟩)
      · exact .inr (.inr (.inl ⟨w, rfl⟩))
    · exact ⟨hp, by simp [hc], .inr (.inr (.inr (exec_decoded_call_refused hd hexec)))⟩
  · obtain ⟨t, ht⟩ := hinv.step_busy_answers hp
    cases ht.symm.trans h

end Sys2Proof.Machine

/-! PROOFS. The statements about 70_reset_and_hazards.md: a reset in IDLE, and the reset request while a transaction is
in flight. -/

namespace Sys2Proof.Machine

/-! ### A reset in IDLE (70_reset_and_hazards.md rule R178) -/

/-- In IDLE a requested reset is served. -/
theorem step_reset {s : State} (hp : s.phase = .idle) (hr : s.resetReq = true) : step s = .next s.hwReset := by
  simp [step, hp, hr]

/-- Settles O42: the reset leaves no result and an empty buffer, and keeps the record of the bytes sent. -/
theorem resetInIdle : Obligations.ResetInIdle := by
  intro s hp hr
  obtain ⟨hres, hstatus, hwords⟩ := State.no_result_of_not_done s.hwReset_done
  exact ⟨s.hwReset, step_reset hp hr, rfl, rfl, rfl, rfl, hres, hstatus, hwords, fun _ => rfl⟩

/-! ### The request in flight (70_reset_and_hazards.md rule R179)

Every instruction, and every step of a transaction in flight, commutes with setting the request to another value. Where
a definition does not read the request, it is the same of both states by computation. -/

/-- The state with the reset request at the value `b`. -/
def State.withResetReq (s : State) (b : Bool) : State := { s with resetReq := b }

/-- The outcome with the reset request of its next state at the value `b`. -/
def outcomeWithResetReq {ρ : Type} (b : Bool) : Host.Outcome State Fault ρ → Host.Outcome State Fault ρ
  | .next t => .next (t.withResetReq b)
  | .fault f => .fault f
  | .refused r => .refused r

/-- A branch taken on the same condition. -/
theorem outcomeWithResetReq_ite {ρ : Type} (b : Bool) {c : Prop} [Decidable c]
    {x y x' y' : Host.Outcome State Fault ρ}
    (hx : c → x' = outcomeWithResetReq b x) (hy : ¬ c → y' = outcomeWithResetReq b y) :
    (if c then x' else y') = outcomeWithResetReq b (if c then x else y) := by
  split
  next hc => exact hx hc
  next hc => exact hy hc

section
variable (s : State) (b : Bool)

/-! The operations that need an argument of their own. -/

theorem State.memReadWords_withResetReq (k n : Nat) : (s.withResetReq b).memReadWords k n = s.memReadWords k n := by
  induction n generalizing k with
  | zero => rfl
  | succ n ih =>
    have hread (a m : Nat) : (s.withResetReq b).memRead a m = s.memRead a m := rfl
    simp only [State.memReadWords, hread, ih]

theorem State.useAnswer_withResetReq : (s.withResetReq b).useAnswer = s.useAnswer.withResetReq b := by
  cases hl : s.line with
  | nil => rw [State.useAnswer_nil hl, State.useAnswer_nil (s := s.withResetReq b) hl]; rfl
  | cons e es => rw [State.useAnswer_cons hl, State.useAnswer_cons (s := s.withResetReq b) hl]; rfl

theorem State.frame_withResetReq (h : Word) {payload : List Word} (hl : payload.length = s.count) :
    outcomeOf (ρ := Refusal) ((s.withResetReq b).frame h payload) =
      outcomeWithResetReq b (outcomeOf (s.frame h payload)) := by
  rw [s.frame_ok h payload hl, (s.withResetReq b).frame_ok h payload hl]
  rfl

theorem State.extract_withResetReq :
    outcomeOf (ρ := Refusal) (s.withResetReq b).extract = outcomeWithResetReq b (outcomeOf s.extract) := by
  have hwords : (s.withResetReq b).memReadWords 0 (s.withResetReq b).count = s.memReadWords 0 s.count :=
    s.memReadWords_withResetReq b 0 s.count
  rcases bit_cases s.op with ho | ho
  · rw [State.extract, State.extract, if_pos ho, if_pos (show (s.withResetReq b).op = 0 from ho), hwords]
    cases s.memReadWords 0 s.count <;> rfl
  · rw [s.extract_write ho, (s.withResetReq b).extract_write ho]
    rfl

/-! The instructions. -/

theorem offerCommand_withResetReq {t t' : State} (ht : t' = t.withResetReq b) :
    offerCommand (s.withResetReq b) t' = outcomeWithResetReq b (offerCommand s t) :=
  outcomeWithResetReq_ite b (fun _ => congrArg _ ht) (fun _ => rfl)

theorem frameRead_withResetReq (h : Word) : frameRead h (s.withResetReq b) = outcomeWithResetReq b (frameRead h s) :=
  outcomeWithResetReq_ite b (fun _ => s.frame_withResetReq b h List.length_replicate) (fun _ => rfl)

theorem frameWrite_withResetReq (h : Word) : frameWrite h (s.withResetReq b) = outcomeWithResetReq b (frameWrite h s) :=
  outcomeWithResetReq_ite b
    (fun _ => outcomeWithResetReq_ite b (fun hw => s.frame_withResetReq b h (List.length_take_of_le hw)) (fun _ => rfl))
    (fun _ => rfl)

theorem exec_withResetReq (i : Instr) : exec i (s.withResetReq b) = outcomeWithResetReq b (exec i s) := by
  cases i with
  | construct => exact outcomeWithResetReq_ite b (fun _ => rfl) (fun _ => rfl)
  | execRead | execWrite => exact outcomeWithResetReq_ite b (fun _ => offerCommand_withResetReq s b rfl) (fun _ => rfl)
  | getIdver | getPhyid | getCapability => exact offerCommand_withResetReq s b rfl
  | hdrCtrlRead | hdrEngineRead => exact frameRead_withResetReq s b _
  | hdrCtrlWrite | hdrEngineWrite => exact frameWrite_withResetReq s b _
  | echoAccept p l a m d w r =>
    exact outcomeWithResetReq_ite b (fun _ => (s.latchEcho (packHeader p l a m d w 0 r)).extract_withResetReq b)
      (fun _ => rfl)
  | echoReject => exact outcomeWithResetReq_ite b (fun _ => rfl) (fun _ => rfl)
  | _ => rfl

/-! The steps in flight. -/

theorem runFetched_withResetReq (x : Fetched) :
    runFetched (s.withResetReq b) x = outcomeWithResetReq b (runFetched s x) := by
  cases x with
  | instr i => exact exec_withResetReq s b i
  | nothing | bad | noImage => rfl

theorem byteStep_withResetReq (x : Byte) : byteStep (s.withResetReq b) x = outcomeWithResetReq b (byteStep s x) := by
  have hanswer : (s.withResetReq b).nextAnswer ((s.withResetReq b).sent ++ [x]) = s.nextAnswer (s.sent ++ [x]) := rfl
  rw [byteStep, byteStep, hanswer, s.useAnswer_withResetReq b]
  cases s.nextAnswer (s.sent ++ [x]) <;> rfl

theorem finalStep_withResetReq : finalStep (s.withResetReq b) = outcomeWithResetReq b (finalStep s) := by
  have hanswer : (s.withResetReq b).nextAnswer (s.withResetReq b).sent = s.nextAnswer s.sent := rfl
  rw [finalStep, finalStep, hanswer, s.useAnswer_withResetReq b]
  cases s.nextAnswer s.sent <;> rfl

theorem exchangeStep_withResetReq : exchangeStep (s.withResetReq b) = outcomeWithResetReq b (exchangeStep s) := by
  refine outcomeWithResetReq_ite b (fun _ => ?_) (fun _ => ?_)
  · have hread : Memory.read (s.withResetReq b).tb (s.withResetReq b).bidx.toNat = Memory.read s.tb s.bidx.toNat := rfl
    rw [hread]
    cases Memory.read s.tb s.bidx.toNat with
    | some x => exact byteStep_withResetReq s b x
    | none => rfl
  · exact outcomeWithResetReq_ite b (fun _ => finalStep_withResetReq s b) (fun _ => rfl)

variable {s}

/-- In flight the request decides nothing: a step carries it along. -/
theorem step_withResetReq_of_busy (hbusy : s.phase ≠ .idle) :
    step (s.withResetReq b) = outcomeWithResetReq b (step s) := by
  have hphase : (s.withResetReq b).phase = s.phase := rfl
  rw [step, step, hphase]
  cases hp : s.phase with
  | idle => exact absurd hp hbusy
  | encode => exact outcomeWithResetReq_ite b (fun _ => runFetched_withResetReq s b _) (fun _ => rfl)
  | exchange => exact exchangeStep_withResetReq s b
  | validate => exact runFetched_withResetReq s b _

end

/-- Settles O43: in flight a step commutes with setting the request to any value. -/
theorem noResetWhileInFlight : Obligations.NoResetWhileInFlight := by
  intro s t b hbusy hstep
  have hcarried := step_withResetReq_of_busy b hbusy
  rw [hstep] at hcarried
  exact hcarried

end Sys2Proof.Machine
